-- ==== Sys2Proof/Machine/Flags.lean ====
section
/-!
DEFINITION. The core has no flags, condition codes or predicates (R30): no instruction writes one and none is conditional.
What other machines deliver into flags, the sign of a value, `SGN` delivers into the accumulator; it is computed here.
-/

namespace Sys2Proof.Machine

/-- `sign(x)`: -1, 0 or 1 as `x` is negative, zero or positive (R97). -/
def sign (x : Int) : Int := if x < 0 then -1 else if x = 0 then 0 else 1

end Sys2Proof.Machine
end

