-- ==== Sys2Proof/Syntax.lean ====
section
/-!
DEFINITION. The instructions of the conf_hw4 core: one constructor per row of `spec/opcode_table.json`.
-/

namespace Sys2Proof

/-- The four instructions of R2 and R102, each with its operand, a natural number (R57). The range of the operand is
`Instr.wellFormed`'s matter. -/
inductive Instr where
  /-- `LOADC x`, load constant (R98). -/
  | loadc (x : Nat)
  /-- `SGN x`, sign of the memory cell `x` (R99). -/
  | sgn (x : Nat)
  /-- `LOAD x`, load from the cell at accumulator plus `x` (R100). -/
  | load (x : Nat)
  /-- `STORE x`, store the accumulator to cell `x` (R101). -/
  | store (x : Nat)
deriving DecidableEq, Repr

end Sys2Proof
end

