-- ==== Sys2Proof/WellFormed.lean ====
section
/-!
DEFINITION. Which instructions the encoding can spell: the operand ranges of R57.
-/

namespace Sys2Proof

/-- The operand fits its field: 29 bits for `LOADC` (90_conflicts.md C1), 21 for `SGN` and `STORE`, 5 for `LOAD` (R57).
Nothing else restricts an instruction (R61). -/
def Instr.wellFormed : Instr → Bool
  | .loadc x => decide (x ≤ 536870911)
  | .sgn x => decide (x ≤ 2097151)
  | .load x => decide (x ≤ 31)
  | .store x => decide (x ≤ 2097151)

end Sys2Proof
end

