-- ==== Sys2Proof/Word.lean ====
section
/-!
DEFINITION. The words of the conf_hw4 core: octets and text.

Every other number of the machine is a mathematical integer or natural (spec R10, R21, R25), so only the
octets of the instruction stream are bit vectors.
-/

namespace Sys2Proof

/-- An octet of the instruction stream, a value in `0..255` (R10). -/
abbrev Octet := BitVec 8

/-- An ordered sequence of octets: the binary instruction stream or a part of it (R32). -/
abbrev Octets := List Octet

/-- A piece of plain text: a line of assembly source, a token, a field of a trace record (R73, R77). -/
abbrev Text := List Char

end Sys2Proof
end

