-- ==== Sys2Proof/Decode.lean ====
section
/-!
DEFINITION. The instruction codec: the opcode table (R55), the decoder DEC (R66 to R69) and the encoder ENC (R62 to
R65), with the bit-slicing and byte-order helpers they use (R11, R12) and the signals they return (R14, R104).
-/

namespace Sys2Proof

/-! ## Signals -/

/-- The signals of R104, one closed type with no cause numbers (92_eei_decisions.md D18). A signal is a value returned to
the caller (R14). -/
inductive Signal where
  /-- Raised by DEC: no octet at the offset, or fewer octets than the recognised code needs. -/
  | truncatedInstruction
  /-- Raised by DEC: the code is 0, 2, 6 or 7. -/
  | unrecognizedOpcode (code : Nat)
  /-- Raised by `SGN`, `LOAD` and `STORE`: the data address is outside `0..1023`. -/
  | memoryFault (addr : Int)
  /-- Raised by ENC and the assembler: the mnemonic is not one of the four. -/
  | unknownMnemonicError
  /-- Raised by the assembler: a wrong number of tokens, or an operand token that is not an integer. -/
  | parseError
  /-- Raised by ENC: the operand is negative, `Refused(NegativeOperand)`. -/
  | negativeOperand
deriving DecidableEq, Repr

/-! ## Bits and octets -/

/-- `v[hi:lo]`, the bits `hi` down to `lo` of a natural (R11). -/
def slice (v hi lo : Nat) : Nat := (v >>> lo) % 2 ^ (hi - lo + 1)

/-- `LE(b0..b(n-1))`: the first octet is the least significant (R12). -/
def littleEndian : Octets → Nat
  | [] => 0
  | b :: bs => b.toNat + 256 * littleEndian bs

/-- `LEbytes_n(v)`: the `n` low octets of `v`, the least significant first (R12). -/
def littleEndianOctets : Nat → Nat → Octets
  | 0, _ => []
  | n + 1, v => BitVec.ofNat 8 v :: littleEndianOctets n (v / 256)

/-! ## The opcode table -/

/-- The mnemonic tags `m` of R62, one per instruction kind (R15). -/
inductive Opcode where
  | loadc
  | sgn
  | load
  | store
deriving DecidableEq, Repr

/-- The opcode code, stored in bits 2..0 of the first octet (R9, R55). -/
def Opcode.code : Opcode → Nat
  | .loadc => 1
  | .sgn => 3
  | .load => 4
  | .store => 5

/-- The fixed length of the instruction in octets (R9, R55). -/
def Opcode.length : Opcode → Nat
  | .loadc => 4
  | .sgn => 3
  | .load => 1
  | .store => 3

/-- `W(op) = 8 * len(op) - 3`, the width of the operand field in bits (R9, R57). -/
def Opcode.width (op : Opcode) : Nat := 8 * op.length - 3

/-- The canonical upper-case mnemonic (R76). -/
def Opcode.mnemonic : Opcode → Text
  | .loadc => ['L', 'O', 'A', 'D', 'C']
  | .sgn => ['S', 'G', 'N']
  | .load => ['L', 'O', 'A', 'D']
  | .store => ['S', 'T', 'O', 'R', 'E']

/-- The instruction kind of a code; none for 0, 2, 6 and 7 (R55, R60). -/
def Opcode.ofCode : Nat → Option Opcode
  | 1 => some .loadc
  | 3 => some .sgn
  | 4 => some .load
  | 5 => some .store
  | _ => none

/-- The instruction kind of a canonical mnemonic, matched exactly (R62). -/
def Opcode.ofMnemonic (m : Text) : Option Opcode :=
  if m = Opcode.loadc.mnemonic then some .loadc
  else if m = Opcode.sgn.mnemonic then some .sgn
  else if m = Opcode.load.mnemonic then some .load
  else if m = Opcode.store.mnemonic then some .store
  else none

/-- The instruction of a kind with an operand. -/
def Opcode.instr : Opcode → Nat → Instr
  | .loadc, x => .loadc x
  | .sgn, x => .sgn x
  | .load, x => .load x
  | .store, x => .store x

/-- The kind of an instruction. -/
def Instr.opcode : Instr → Opcode
  | .loadc _ => .loadc
  | .sgn _ => .sgn
  | .load _ => .load
  | .store _ => .store

/-- The operand of an instruction. -/
def Instr.operand : Instr → Nat
  | .loadc x => x
  | .sgn x => x
  | .load x => x
  | .store x => x

/-! ## Decoder -/

/-- The opcode field `b0[2:0]` of a first octet, the only selector (R55, R56). -/
def opcodeField (b0 : Octet) : Nat := slice b0.toNat 2 0

/-- The operand field of a word: `w >> 3`, zero-extended and unscaled (R57). -/
def operandField (w : Nat) : Nat := w >>> 3

/-- The word of the `n` octets of `S` from `off` on, little-endian (R40, R53). -/
def fetchWord (S : Octets) (off n : Nat) : Nat := littleEndian ((S.drop off).take n)

/-- `Decode(S, off)` (R66): the instruction and its length, or the signal that there is none. The code is looked at before
the length (R67; the spec's decisions D7 and D8). -/
def decode (S : Octets) (off : Nat) : Except Signal (Instr × Nat) :=
  match S[off]? with
  | none => .error .truncatedInstruction
  | some b0 =>
    match Opcode.ofCode (opcodeField b0) with
    | none => .error (.unrecognizedOpcode (opcodeField b0))
    | some op =>
      if off + op.length > S.length then .error .truncatedInstruction
      else .ok (op.instr (operandField (fetchWord S off op.length)), op.length)

/-- The octets of an instruction whose table bits are `w`: bit 0 of `w` is bit 0 of the first octet, and every bit from
`nbits` up to the longest instruction (4 octets) is 0. -/
def tableOctets (nbits w : Nat) : Octets := littleEndianOctets 4 (w % 2 ^ nbits)

/-- The instruction the decoder reads from a row of `spec/opcode_table.json` whose bits are `w`; none where it signals. -/
def decodeTableWord (nbits w : Nat) : Option Instr :=
  match decode (tableOctets nbits w) 0 with
  | .ok (i, _) => some i
  | .error _ => none

/-! ## Encoder -/

/-- The packed value `(operand << 3) | code` (R16, R53). -/
def Opcode.packed (op : Opcode) (x : Nat) : Nat := (x <<< 3) ||| op.code

/-- The body of `Encode` for a known mnemonic and a natural operand: the low `8n` bits of the packed value, so operand bits
from `W(op)` on are dropped without an error (R62, R63; the spec's decision D5). -/
def Opcode.encode (op : Opcode) (x : Nat) : Octets :=
  littleEndianOctets op.length (op.packed x % 2 ^ (8 * op.length))

/-- The octets of an instruction. -/
def encode (i : Instr) : Octets := i.opcode.encode i.operand

/-- `Encode(m, x)` (R62) for any tag and any integer: an unknown mnemonic is reported before a negative operand (R64). -/
def encodeMnemonic (m : Text) (x : Int) : Except Signal Octets :=
  match Opcode.ofMnemonic m with
  | none => .error .unknownMnemonicError
  | some op => if x < 0 then .error .negativeOperand else .ok (op.encode x.toNat)

end Sys2Proof
end

