-- ==== Sys2Proof/Config.lean ====
section
/-!
DEFINITION. The implementation parameters of R9 that are not part of the instruction encoding.

The opcode codes and lengths, also parameters of R9, stand in `Decode.lean` beside the codec that uses them.
The OPEN parameters `CELL_WIDTH` and `IP_WIDTH` of a finite realisation (R22, R27) are arguments of the machine of
`Machine/Finite.lean`; the core itself has unbounded values. The spec leaves no value free (93, part 1), so there is
no opaque constant here.
-/

namespace Sys2Proof.Config

/-- `MEM_SIZE`, the number of data-memory cells (R9, R31). -/
def memSize : Nat := 1024

/-- The reference `PRESEED`: the address and value of each pre-seeded cell (R34, R50). A launch may override it. -/
def preseed : List (Int × Int) := [(0, -5), (1, 0), (2, 10), (3, -1)]

end Sys2Proof.Config
end

