-- ==== Sys2Proof/Machine/Memory.lean ====
section
/-!
DEFINITION. The data memory: 1024 cells of one integer each (R31), as a list of (address, value) pairs in one canonical
form. A cell is an integer and never split into octets (R21, R40), so the pairs hold integers where another machine's
would hold bytes.
-/

namespace Sys2Proof.Machine

/-- The data memory: the cells that differ from what an unlisted cell reads as, by rising address. -/
abbrev Memory := List (Nat × Int)

/-- What an unlisted cell reads as: memory is zero-initialised (R31, R120). -/
def unlistedCell : Int := 0

/-- The value of cell `a`. -/
def readCell : Memory → Nat → Int
  | [], _ => unlistedCell
  | (b, v) :: m, a => if b = a then v else readCell m a

/-- The memory with the pair `(a, v)` put in its place among rising addresses. -/
def insertCell (a : Nat) (v : Int) : Memory → Memory
  | [] => [(a, v)]
  | (b, w) :: m => if a < b then (a, v) :: (b, w) :: m else (b, w) :: insertCell a v m

/-- The memory without a pair for `a`. -/
def eraseCell (a : Nat) (m : Memory) : Memory := m.filter (fun c => c.1 ≠ a)

/-- The memory with cell `a` holding exactly `v` (R38); writing what an unlisted cell reads as removes the pair. -/
def writeCell (m : Memory) (a : Nat) (v : Int) : Memory :=
  if v = unlistedCell then eraseCell a m else insertCell a v (eraseCell a m)

/-- The canonical form: addresses strictly rising and in `0..1023`, and no pair that says what an unlisted cell reads as. -/
abbrev Memory.wf (m : Memory) : Prop :=
  m.Pairwise (fun c d => c.1 < d.1) ∧ ∀ c ∈ m, c.2 ≠ unlistedCell ∧ c.1 < Config.memSize

/-- `0 <= a <= 1023`, the data addresses that exist (R36). -/
def inRange (a : Int) : Bool := decide (0 ≤ a) && decide (a < Config.memSize)

/-- Zeroed memory with the cells of a pre-seed map written in order (R118). -/
def preseeded (P : List (Int × Int)) : Memory := P.foldl (fun m c => writeCell m c.1.toNat c.2) []

end Sys2Proof.Machine
end

