-- ==== Sys2Proof/Machine/State.lean ====
section
/-!
DEFINITION. The state of the core (R18), its reset value (R34), and the reasons for which a step has no next state.
-/

namespace Sys2Proof.Machine

/-- The state `(Mem, acc, ip, halted, fault)` of R18, with the stream `S` that a run reads (R32). -/
structure State where
  /-- `Mem`, the data memory (R31). -/
  mem : Memory
  /-- `acc`, the accumulator, an unbounded integer (R20, R21). -/
  acc : Int
  /-- `ip`, the octet offset of the next instruction, an unbounded natural (R24, R25). -/
  ip : Nat
  /-- `halted`, set by a silent halt (R28). -/
  halted : Bool
  /-- `fault`, the data address whose access raised `MemoryFault`, if one did (R29). -/
  fault : Option Int
  /-- `S`, the binary instruction stream: an input of the run that no step writes (R32, R48). DESIGN CHOICE: the spec calls
  it an input and not state; it stands here because a step reads a state and nothing else (log 1). -/
  stream : Octets
deriving DecidableEq, Repr

/-- `L`, the number of octets of the stream (R32). -/
def State.streamLength (s : State) : Nat := s.stream.length

/-- Why `step` answers no next state. Each constructor names one terminal condition of R88: SEQ has no step there (R80), and
never has one again (R89). Safe: nothing is said of a step the spec does not give. No instruction's meaning raises one; the
event that leads to a terminal state (a silent halt, a memory fault) is itself a next state. -/
inductive Fault where
  /-- Raised by `step` in a state with `halted` set: the run ended by a silent halt (R84). Safe. -/
  | silentHalt
  /-- Raised by `step` in a state with `fault` set: the run ended by a `MemoryFault` at this data address (R106). Safe. -/
  | memoryFault (addr : Int)
  /-- Raised by `step` in a state with `ip >= L`: the run ended by exhaustion of the stream (R88, R90). Safe. -/
  | exhausted
deriving DecidableEq, Repr

/-- Why an instruction has no meaning. -/
inductive Refusal where
  /-- Would be raised by `exec` for an instruction without a meaning, by its mnemonic. Safe. No arm of `exec` raises it. -/
  | notModelled (mnemonic : String)
deriving DecidableEq, Repr

/-- The state right after reset (R34, R118) with the reference pre-seed and no stream loaded yet: `Mem` is 0 but for the
pre-seeded cells, `acc` and `ip` are 0, `halted` is false and `fault` is none. `launch` loads a stream (log 2). -/
def State.reset : State where
  mem := preseeded Config.preseed
  acc := 0
  ip := 0
  halted := false
  fault := none
  stream := []

end Sys2Proof.Machine
end

