-- ==== Sys2Proof/Machine/Operands.lean ====
section
/-!
DEFINITION. The operand forms: how an instruction forms its data address (R36, R95). Every operand is a natural taken from
the instruction word; no instruction names a register (R19).
-/

namespace Sys2Proof.Machine

/-- The address of `SGN x` and `STORE x`: the operand itself (R36, R95). -/
def directAddress (x : Nat) : Int := x

/-- The address of `LOAD x`: the accumulator plus the operand, an exact sum that may be negative (R95, R100). -/
def accAddress (acc : Int) (x : Nat) : Int := acc + x

/-- The data address an instruction accesses when the accumulator is `acc`; `LOADC` accesses none (R98 to R101). -/
def dataAddress (acc : Int) : Instr → Option Int
  | .loadc _ => none
  | .sgn x => some (directAddress x)
  | .load x => some (accAddress acc x)
  | .store x => some (directAddress x)

end Sys2Proof.Machine
end

