-- ==== Sys2Proof/Machine/Ops.lean ====
section
/-!
DEFINITION. The operations the meanings share: checked memory access (R37, R38), writing the registers, taking a signal
(R84, R106) and completing an instruction (R86, R87).

There is no return from an exception beside the entry: a terminal state is absorbing and the core has no handler (R103,
R109).
-/

namespace Sys2Proof.Machine

/-! ## Memory access -/

/-- `MemRead(a, 1)` (R37): the cell's integer, or `MemoryFault(a)` where there is no cell (the spec's decision D4). -/
def memRead (m : Memory) (a : Int) : Except Signal Int :=
  if inRange a then .ok (readCell m a.toNat) else .error (.memoryFault a)

/-- `MemWrite(a, 1, v)` (R38): the memory with `v` in cell `a`, or `MemoryFault(a)` before any cell changes (D4). -/
def memWrite (m : Memory) (a v : Int) : Except Signal Memory :=
  if inRange a then .ok (writeCell m a.toNat v) else .error (.memoryFault a)

/-! ## Register writes -/

/-- `acc <- v` (R13). -/
def State.setAcc (s : State) (v : Int) : State := { s with acc := v }

/-- The state with another data memory. -/
def State.setMem (s : State) (m : Memory) : State := { s with mem := m }

/-- `ip <- ip + n` (R86). -/
def State.advance (s : State) (n : Nat) : State := { s with ip := s.ip + n }

/-! ## Taking a signal -/

/-- Entry into a stop, the core's only exceptions (R104, column "recorded in state"). A decode signal sets `halted` and
nothing else (R84, R105); `MemoryFault(a)` writes `fault <- a` and nothing else (R106). The assembly-time signals reach no
machine (R117) and record nothing. -/
def State.takeSignal (s : State) : Signal → State
  | .truncatedInstruction => { s with halted := true }
  | .unrecognizedOpcode _ => { s with halted := true }
  | .memoryFault a => { s with fault := some a }
  | .unknownMnemonicError => s
  | .parseError => s
  | .negativeOperand => s

/-- The end of an instruction of kind `op` begun in state `s`: after its effect the instruction pointer advances by its length
(R86); if the effect raised a signal, the step ends there and only the signal is recorded (R87). -/
def complete (op : Opcode) (s : State) : Except Signal State → Host.Outcome State Fault Refusal
  | .ok t => .next (t.advance op.length)
  | .error sig => .next (s.takeSignal sig)

/-! ## Terminal states -/

/-- Why SEQ has no step in a state, if it has none (R80, R88): it has halted, or a fault is recorded, or the stream is
exhausted. -/
def State.stopReason (s : State) : Option Fault :=
  if s.halted then some .silentHalt
  else match s.fault with
    | some a => some (.memoryFault a)
    | none => if s.ip ≥ s.streamLength then some .exhausted else none

/-- A terminal state is one in which SEQ has no step (R88). -/
def State.terminal (s : State) : Bool := s.stopReason.isSome

end Sys2Proof.Machine
end

