-- ==== Sys2Proof/Machine/AccumulatorMemory.lean ====
section
/-!
DEFINITION. The meanings of the four instructions, one family: each moves one value into or out of the accumulator
(`41_accumulator_memory.md`). A meaning is the execute part of the step of R81 with the advance of R86; whether SEQ takes a
step at all (R80) is `step`'s matter.
-/

namespace Sys2Proof.Machine

/-- `LOADC x`: `acc <- x`; no data access, so no exception (R98). -/
def execLoadc (x : Nat) (s : State) : Host.Outcome State Fault Refusal :=
  complete .loadc s (.ok (s.setAcc x))

/-- `SGN x`: `acc <- sign(Mem[x])`, or `MemoryFault(x)` (R99). -/
def execSgn (x : Nat) (s : State) : Host.Outcome State Fault Refusal :=
  complete .sgn s ((memRead s.mem (directAddress x)).map fun v => s.setAcc (sign v))

/-- `LOAD x`: `acc <- Mem[acc + x]` with the old `acc` as the base, or `MemoryFault(acc + x)` (R100, R124). -/
def execLoad (x : Nat) (s : State) : Host.Outcome State Fault Refusal :=
  complete .load s ((memRead s.mem (accAddress s.acc x)).map fun v => s.setAcc v)

/-- `STORE x`: `Mem[x] <- acc`, exactly, or `MemoryFault(x)` with no cell changed (R101). -/
def execStore (x : Nat) (s : State) : Host.Outcome State Fault Refusal :=
  complete .store s ((memWrite s.mem (directAddress x) s.acc).map fun m => s.setMem m)

end Sys2Proof.Machine
end

