-- ==== Sys2Proof/Machine/Dispatch.lean ====
section
/-! DEFINITION. The dispatch of R85: one arm per instruction, exhaustive, no default. -/

namespace Sys2Proof.Machine

def exec (i : Instr) (s : State) : Host.Outcome State Fault Refusal :=
  match i with
  | .loadc x => Sys2Proof.Machine.execLoadc x s
  | .sgn x => Sys2Proof.Machine.execSgn x s
  | .load x => Sys2Proof.Machine.execLoad x s
  | .store x => Sys2Proof.Machine.execStore x s

end Sys2Proof.Machine
end

