-- ==== Sys2Proof/Machine/Fetch.lean ====
section
/-!
DEFINITION. Fetch: DEC applied at the instruction pointer (R79, R82), and the placing of one instruction where the next
step fetches it.
-/

namespace Sys2Proof.Machine

/-- The instruction at `ip` and its length, or the decode signal (R81). -/
def State.fetch (s : State) : Except Signal (Instr × Nat) := decode s.stream s.ip

/-- A stream with `octets` at offset `off`: what stood there is replaced, and a gap before it is filled with zero octets. -/
def placeOctets (S : Octets) (off : Nat) (octets : Octets) : Octets :=
  S.take off ++ List.replicate (off - S.length) 0#8 ++ octets ++ S.drop (off + octets.length)

end Sys2Proof.Machine
end

