-- ==== Sys2Proof/Machine/Step.lean ====
section
/-! DEFINITION. One step of SEQ (R81), and the placing of an instruction word for it. -/

namespace Sys2Proof.Machine

/-- One step of SEQ (R81). In a terminal state there is no step (R80, R88) and the answer names why. Otherwise the instruction
at `ip` is decoded: a decode signal is taken as a silent halt (R84), an instruction is executed (R85). -/
def step (s : State) : Host.Outcome State Fault Refusal :=
  match s.stopReason with
  | some reason => .fault reason
  | none =>
    match s.fetch with
    | .error sig => .next (s.takeSignal sig)
    | .ok (i, _) => exec i s

/-- The state with the instruction whose table bits are `w` in the stream at `ip`, where `step` fetches next; it stands for the
host's load of a stream (log 2). -/
def State.withFetchWord (s : State) (nbits w : Nat) : State :=
  { s with stream := placeOctets s.stream s.ip (tableOctets nbits w) }

end Sys2Proof.Machine
end

