-- ==== Sys2Proof/Machine/Assembler.lean ====
section
/-!
DEFINITION. The assembler that feeds the encoder: source lines (R73, R74), whole programs (R75) and the trace record (R77).
It runs before any execution and shares no state with the core (R117).
-/

namespace Sys2Proof.Machine

/-! ## Characters and tokens -/

/-- Space, tab, line feed, vertical tab, form feed and carriage return (the spec's decision D12). -/
def isWhitespace (c : Char) : Bool :=
  decide (c.toNat = 32) || (decide (9 ≤ c.toNat) && decide (c.toNat ≤ 13))

/-- An ASCII letter folded to upper case; any other character as it is (R76; the spec's decision D14). -/
def upperCase (c : Char) : Char :=
  if 97 ≤ c.toNat ∧ c.toNat ≤ 122 then Char.ofNat (c.toNat - 32) else c

/-- The part of a line before its first `;` (R73). -/
def stripComment (line : Text) : Text := line.takeWhile (fun c => c ≠ ';')

/-- The token gathered so far, if it has a character. -/
def flushToken : Text → List Text
  | [] => []
  | c :: cs => [c :: cs]

/-- The tokens of a text after the characters `cur` of an unfinished token. -/
def tokensAfter (cur : Text) : Text → List Text
  | [] => flushToken cur
  | c :: cs =>
    if isWhitespace c then flushToken cur ++ tokensAfter [] cs else tokensAfter (cur ++ [c]) cs

/-- The text split at each maximal run of whitespace, whitespace at its ends ignored (R74). -/
def tokens (t : Text) : List Text := tokensAfter [] t

/-! ## Integer tokens -/

/-- The value of a decimal digit. -/
def digitValue (c : Char) : Option Nat :=
  if 48 ≤ c.toNat ∧ c.toNat ≤ 57 then some (c.toNat - 48) else none

/-- The decimal value of digits after a part of value `acc`; none if a character is no digit. -/
def digitsAfter (acc : Nat) : Text → Option Nat
  | [] => some acc
  | c :: cs =>
    match digitValue c with
    | some d => digitsAfter (10 * acc + d) cs
    | none => none

/-- `[0-9]+` as a decimal natural, leading zeros allowed. -/
def parseDigits : Text → Option Nat
  | [] => none
  | c :: cs => digitsAfter 0 (c :: cs)

/-- `[+-]?[0-9]+` as a decimal integer (R74; the spec's decision D11). -/
def parseInteger : Text → Option Int
  | '+' :: ds => (parseDigits ds).map fun n : Nat => (n : Int)
  | '-' :: ds => (parseDigits ds).map fun n : Nat => -(n : Int)
  | ds => (parseDigits ds).map fun n : Nat => (n : Int)

/-! ## Lines and programs -/

/-- `AssembleLine(line)` (R74): nothing for a blank or comment-only line, else the mnemonic tag and the operand as written. The
mnemonic is looked at before the operand (the spec's decision D13). -/
def assembleLine (line : Text) : Except Signal (Option (Opcode × Int)) :=
  match tokens (stripComment line) with
  | [] => .ok none
  | [m, operand] =>
    match Opcode.ofMnemonic (m.map upperCase) with
    | none => .error .unknownMnemonicError
    | some op =>
      match parseInteger operand with
      | none => .error .parseError
      | some x => .ok (some (op, x))
  | _ => .error .parseError

/-- An upper-case hexadecimal digit. -/
def hexDigit (d : Nat) : Char := if d < 10 then Char.ofNat (48 + d) else Char.ofNat (55 + d)

/-- An octet as `0x` and two upper-case hexadecimal digits (R77). -/
def hexOctet (b : Octet) : Text := ['0', 'x', hexDigit (b.toNat / 16), hexDigit (b.toNat % 16)]

/-- Octets in hexadecimal, separated by single spaces, in stream order (R77). -/
def machineCode : Octets → Text
  | [] => []
  | [b] => hexOctet b
  | b :: c :: bs => hexOctet b ++ ' ' :: machineCode (c :: bs)

/-- `TraceRecord` (R77): the canonical mnemonic, the operand as written in the source, before any truncation, and the encoded
octets. -/
structure TraceRecord where
  mnemonic : Text
  operand : Int
  machineCode : Text
deriving DecidableEq, Repr

/-- The octets and the trace record of one line (R74, R75): nothing for a line without an instruction. -/
def assembleRecord (line : Text) : Except Signal (Option (Octets × TraceRecord)) :=
  match assembleLine line with
  | .error e => .error e
  | .ok none => .ok none
  | .ok (some (op, x)) =>
    match encodeMnemonic op.mnemonic x with
    | .error e => .error e
    | .ok e => .ok (some (e, { mnemonic := op.mnemonic, operand := x, machineCode := machineCode e }))

/-- `AssembleProgram(lines)` (R75): the stream and the trace in program order, or the first line's error that occurs and no
output at all. -/
def assembleProgram : List Text → Except Signal (Octets × List TraceRecord)
  | [] => .ok ([], [])
  | line :: lines =>
    match assembleRecord line with
    | .error e => .error e
    | .ok none => assembleProgram lines
    | .ok (some (octets, record)) =>
      match assembleProgram lines with
      | .error e => .error e
      | .ok (stream, trace) => .ok (octets ++ stream, record :: trace)

end Sys2Proof.Machine
end

