-- ==== Sys2Proof/Machine/Run.lean ====
section
/-!
DEFINITION. Runs (R91): the core's steps from a state until it is terminal, and the same for a list of instructions instead of
a stream.
-/

namespace Sys2Proof.Machine

/-- The state after at most `k` steps, fewer if a terminal state is reached first (R91). -/
def run : Nat → State → State
  | 0, s => s
  | k + 1, s =>
    match step s with
    | .next t => run k t
    | .fault _ => s
    | .refused _ => s

/-- The whole run from a state: `L` steps are always enough (R92). -/
def runToEnd (s : State) : State := run s.streamLength s

/-- The instructions of a list executed one after the other, stopping at the first that raises a fault. This is what a run is
meant to do with a stream that encodes the list (R32, R94). -/
def execAll : List Instr → State → State
  | [], s => s
  | i :: is, s =>
    match exec i s with
    | .next t => if t.fault.isSome then t else execAll is t
    | .fault _ => s
    | .refused _ => s

/-- The stream of a list of instructions: their octets in program order, with nothing between them (R32, R41). -/
def encodeAll (is : List Instr) : Octets := is.flatMap encode

end Sys2Proof.Machine
end

