-- ==== Sys2Proof/Machine/HostAccess.lean ====
section
/-!
DEFINITION. What the host does before and after a run (R121): launching it with a stream and a pre-seed (R50, R118), and taking
the memory dump or the fault report (R51, R52, R96). The host has no move during a run (R125).
-/

namespace Sys2Proof.Machine

/-- Why the host gets nothing. -/
inductive HostRefusal where
  /-- `LaunchPreseed`: the pre-seed names an address outside `0..1023`, so no run exists (R118). -/
  | launchPreseed
  /-- `DumpRange`: the dump range reaches outside `0..1023` (R51). -/
  | dumpRange
  /-- A dump asked for in a state that is not terminal; the host has no move during a run (R51, R125). -/
  | runNotOver
deriving DecidableEq, Repr

/-- `Reset(S, PRESEED)` (R118): a run's first state. The pre-seed is a list of (address, value) pairs written in order. -/
def launch (S : Octets) (P : List (Int × Int)) : Except HostRefusal State :=
  if P.all (fun c => inRange c.1) then
    .ok { mem := preseeded P, acc := 0, ip := 0, halted := false, fault := none, stream := S }
  else .error .launchPreseed

/-- `Run(S, PRESEED)` (R91): the terminal state of the run of a stream. -/
def runStream (S : Octets) (P : List (Int × Int)) : Except HostRefusal State := (launch S P).map runToEnd

/-- `Dump(mem_start, mem_end)` (R51): the records of an inclusive address range, in rising order (the spec's decision D10). -/
def dumpCells (m : Memory) (first last : Int) : Except HostRefusal (List (Int × Int)) :=
  if first > last then .ok []
  else if first < 0 ∨ last > 1023 then .error .dumpRange
  else .ok ((List.range (last - first + 1).toNat).map fun k : Nat => (first + k, readCell m (first + k).toNat))

/-- What the host receives when a run is over (R52, R96). -/
inductive Report where
  /-- The memory dump: address and value of each cell of the range. -/
  | dump (cells : List (Int × Int))
  /-- `MemoryFault` with its address; no dump is produced. -/
  | memoryFault (addr : Int)
deriving DecidableEq, Repr

/-- The host's read-out of a state for a dump range: the fault report if a fault is recorded (R52), else the dump, which is taken
in a terminal state only (R51). -/
def report (s : State) (first last : Int) : Except HostRefusal Report :=
  match s.fault with
  | some a => .ok (.memoryFault a)
  | none =>
    if s.terminal then (dumpCells s.mem first last).map .dump
    else .error .runNotOver

end Sys2Proof.Machine
end

