-- ==== Sys2Proof/Machine/Finite.lean ====
section
/-!
DEFINITION. The finite-width realisation of R22 and R27: the same core with `CELL_WIDTH`-bit two's-complement cells and
accumulator and an `IP_WIDTH`-bit instruction pointer. The two widths are the spec's OPEN parameters (decisions D2, D3).
A value of a cell or of the accumulator is given as the integer its bits stand for.
-/

namespace Sys2Proof.Machine

/-- What `width` bits of two's complement keep of an integer. -/
def wrapCell (width : Nat) (v : Int) : Int := (BitVec.ofInt width v).toInt

/-- `v` fits in `width` signed bits. -/
def fitsCell (width : Nat) (v : Int) : Bool := decide (-2 ^ (width - 1) ≤ v) && decide (v < 2 ^ (width - 1))

/-- The end of an instruction (R86, R87) with an instruction pointer of `ipWidth` bits. -/
def completeFinite (ipWidth : Nat) (op : Opcode) (s : State) : Except Signal State → Host.Outcome State Fault Refusal
  | .ok t => .next { t with ip := (t.ip + op.length) % 2 ^ ipWidth }
  | .error sig => .next (s.takeSignal sig)

/-- The four instructions on `cellWidth`-bit values; the address sum of `LOAD` is formed in one bit more (R22). -/
def execFinite (cellWidth ipWidth : Nat) (i : Instr) (s : State) : Host.Outcome State Fault Refusal :=
  match i with
  | .loadc x => completeFinite ipWidth .loadc s (.ok (s.setAcc (wrapCell cellWidth x)))
  | .sgn x =>
    completeFinite ipWidth .sgn s
      ((memRead s.mem (directAddress x)).map fun v => s.setAcc (wrapCell cellWidth (sign v)))
  | .load x =>
    completeFinite ipWidth .load s
      ((memRead s.mem (wrapCell (cellWidth + 1) (accAddress s.acc x))).map fun v => s.setAcc (wrapCell cellWidth v))
  | .store x =>
    completeFinite ipWidth .store s
      ((memWrite s.mem (directAddress x) (wrapCell cellWidth s.acc)).map fun m => s.setMem m)

/-- One step of the finite realisation, as `step` (R81). -/
def stepFinite (cellWidth ipWidth : Nat) (s : State) : Host.Outcome State Fault Refusal :=
  match s.stopReason with
  | some reason => .fault reason
  | none =>
    match s.fetch with
    | .error sig => .next (s.takeSignal sig)
    | .ok (i, _) => execFinite cellWidth ipWidth i s

/-- At most `k` steps of the finite realisation, as `run`. -/
def runFinite (cellWidth ipWidth : Nat) : Nat → State → State
  | 0, s => s
  | k + 1, s =>
    match stepFinite cellWidth ipWidth s with
    | .next t => runFinite cellWidth ipWidth k t
    | .fault _ => s
    | .refused _ => s

/-- The launch of the finite realisation: each pre-seed value kept in `cellWidth` bits. -/
def launchFinite (cellWidth : Nat) (S : Octets) (P : List (Int × Int)) : Except HostRefusal State :=
  launch S (P.map fun c => (c.1, wrapCell cellWidth c.2))

end Sys2Proof.Machine
end

