-- ==== Sys2Proof/Safety.lean ====
section
/-!
DEFINITION. What the claims call a good state and a safe run.
-/

namespace Sys2Proof.Machine

/-- What every state of a run satisfies: the memory is canonical and has no cell outside `0..1023` (R31); `ip` has not passed the
end of the stream (R26); if the run halted, it halted at an offset inside the stream where nothing decodes (R28, R84, R105); if
it faulted, the instruction at `ip` is the one whose data address faulted (R29, R106, R107). -/
def Invariant (s : State) : Prop :=
  s.mem.wf ∧ s.ip ≤ s.streamLength ∧
    (s.halted = true → s.ip < s.streamLength ∧ ∃ sig, s.fetch = .error sig) ∧
    (∀ a, s.fault = some a → inRange a = false ∧ ∃ i n, s.fetch = .ok (i, n) ∧ dataAddress s.acc i = some a)

/-- Every value the machine holds, in the accumulator or in a cell, satisfies `P`. -/
def Holds (P : Int → Prop) (s : State) : Prop := P s.acc ∧ ∀ a, P (readCell s.mem a)

/-- The run is over by exhaustion: neither halted nor faulted, and `ip` at the end of the stream (R90). -/
def State.endedByExhaustion (s : State) : Prop := s.halted = false ∧ s.fault = none ∧ s.ip = s.streamLength

/-- The run is over by a silent halt (R84, R90). -/
def State.endedBySilentHalt (s : State) : Prop := s.halted = true ∧ s.fault = none ∧ s.ip < s.streamLength

/-- The run is over by a `MemoryFault` (R106). -/
def State.endedByMemoryFault (s : State) : Prop := s.halted = false ∧ s.fault.isSome = true ∧ s.ip < s.streamLength

/-- The next step executes `STORE a` (R101). -/
def State.stores (s : State) (a : Nat) : Prop := s.terminal = false ∧ s.fetch = .ok (.store a, 3)

/-- Whatever instruction the next step executes, its data address is in `0..1023`: what R126 asks of software. -/
def State.accessInRange (s : State) : Prop :=
  s.terminal = false → ∀ i n, s.fetch = .ok (i, n) → ∀ a, dataAddress s.acc i = some a → inRange a = true

end Sys2Proof.Machine
end

