-- ==== Sys2Proof/Certificates/Slice0/Obligations.lean ====
section
/-!
DEFINITION. The statements for the provers. Each docstring names the rule of the spec it formalises, or the spec's own decision
(`92_eei_decisions.md`, D<n>), the spec's own inference, or the model's choice (log <n>) it rests on.
-/

open Sys2Proof Sys2Proof.Machine

/-! ## Codec -/

/-- Words written out in the spec's tables 2.1 and 2.2 decode to the instructions the tables give; one per instruction, the
largest `LOADC` word and a word with bits 31..26 set (90_conflicts.md C1). -/
def Obligations.SpecWordsDecode : Prop :=
  decode [0x29, 0x00, 0x00, 0x00] 0 = .ok (.loadc 5, 4) ∧
  decode [0xF9, 0xFF, 0xFF, 0xFF] 0 = .ok (.loadc 536870911, 4) ∧
  decode [0x01, 0x00, 0x00, 0xFC] 0 = .ok (.loadc 528482304, 4) ∧
  decode [0xFB, 0x1F, 0x00] 0 = .ok (.sgn 1023, 3) ∧
  decode [0x0C] 0 = .ok (.load 1, 1) ∧
  decode [0x0C, 0x2D, 0x00, 0x00] 1 = .ok (.store 5, 3)

/-- R55, the complete opcode map: what the decoder answers for each value of the first octet's low three bits. The word is
written out octet by octet, the first least significant. -/
def Obligations.DecoderFollowsOpcodeMap : Prop :=
  ∀ (before after : Octets) (b0 b1 b2 b3 : Octet),
    (b0.toNat % 8 = 0 → decode (before ++ b0 :: after) before.length = .error (.unrecognizedOpcode 0)) ∧
    (b0.toNat % 8 = 1 → decode (before ++ b0 :: b1 :: b2 :: b3 :: after) before.length =
      .ok (.loadc ((b0.toNat + 2 ^ 8 * b1.toNat + 2 ^ 16 * b2.toNat + 2 ^ 24 * b3.toNat) >>> 3), 4)) ∧
    (b0.toNat % 8 = 2 → decode (before ++ b0 :: after) before.length = .error (.unrecognizedOpcode 2)) ∧
    (b0.toNat % 8 = 3 → decode (before ++ b0 :: b1 :: b2 :: after) before.length =
      .ok (.sgn ((b0.toNat + 2 ^ 8 * b1.toNat + 2 ^ 16 * b2.toNat) >>> 3), 3)) ∧
    (b0.toNat % 8 = 4 → decode (before ++ b0 :: after) before.length = .ok (.load (b0.toNat >>> 3), 1)) ∧
    (b0.toNat % 8 = 5 → decode (before ++ b0 :: b1 :: b2 :: after) before.length =
      .ok (.store ((b0.toNat + 2 ^ 8 * b1.toNat + 2 ^ 16 * b2.toNat) >>> 3), 3)) ∧
    (b0.toNat % 8 = 6 → decode (before ++ b0 :: after) before.length = .error (.unrecognizedOpcode 6)) ∧
    (b0.toNat % 8 = 7 → decode (before ++ b0 :: after) before.length = .error (.unrecognizedOpcode 7))

/-- The spec's own decisions D7 and D8: past the end of the stream there is no instruction, and a recognised code whose octets
do not all remain is truncated. -/
def Obligations.DecoderReportsShortStreams : Prop :=
  ∀ (S : Octets) (off : Nat),
    (S.length ≤ off → decode S off = .error .truncatedInstruction) ∧
    (∀ b0 op, S[off]? = some b0 → Opcode.ofCode (opcodeField b0) = some op → S.length < off + op.length →
      decode S off = .error .truncatedInstruction)

/-- R56: the low three bits of the first octet alone choose the instruction, and with it the length; no other bit of any octet
takes part. -/
def Obligations.LowThreeBitsSelectTheInstruction : Prop :=
  ∀ (S S' : Octets) (off off' : Nat) (b b' : Octet) (i i' : Instr) (n n' : Nat),
    S[off]? = some b → S'[off']? = some b' → b.toNat % 8 = b'.toNat % 8 →
    decode S off = .ok (i, n) → decode S' off' = .ok (i', n') → i.opcode = i'.opcode ∧ n = n'

/-- R57: a decoded operand is `w >> 3`, equal to `w[8n-1:3]`, and lies in the range of its instruction: 29, 21, 5 and 21 bits. -/
def Obligations.DecodedOperandIsTheShiftedWord : Prop :=
  ∀ (S : Octets) (off : Nat) (i : Instr) (n : Nat), decode S off = .ok (i, n) →
    i.operand = fetchWord S off n >>> 3 ∧ i.operand = slice (fetchWord S off n) (8 * n - 1) 3 ∧
    i.operand < 2 ^ (8 * n - 3) ∧ i.wellFormed = true

/-- The spec's own inference in 30_encoding.md section 7: a decoded instruction ends inside the stream, and its decoding reads no
octet but its own: any stream with the same octets in those places decodes alike there. -/
def Obligations.DecoderReadsOnlyTheInstruction : Prop :=
  ∀ (S : Octets) (off : Nat) (i : Instr) (n : Nat), decode S off = .ok (i, n) →
    off + n ≤ S.length ∧
    ∀ S' : Octets, (S'.drop off).take n = (S.drop off).take n → decode S' off = .ok (i, n)

/-- The spec's own inference in 30_encoding.md section 7: the decoder is total, and the only signals it gives are a truncated
instruction and an unrecognised code 0, 2, 6 or 7. -/
def Obligations.DecoderSignalsAreTwo : Prop :=
  ∀ (S : Octets) (off : Nat), (∃ i n, decode S off = .ok (i, n)) ∨ decode S off = .error .truncatedInstruction ∨
    ∃ c, decode S off = .error (.unrecognizedOpcode c) ∧ (c = 0 ∨ c = 2 ∨ c = 6 ∨ c = 7)

/-- Round trip (30_encoding.md section 8; the exact form is the spec's own inference): every instruction whose operand fits its
field is encoded, and its octets decode to it wherever they stand in a stream. -/
def Obligations.EncodeThenDecodeGivesTheInstruction : Prop :=
  ∀ (i : Instr) (before after : Octets), i.wellFormed = true →
    encodeMnemonic i.opcode.mnemonic i.operand = .ok (encode i) ∧
    decode (before ++ encode i ++ after) before.length = .ok (i, i.opcode.length)

/-- The spec's own inference in 30_encoding.md section 8, with decision D5: whatever the operand, the octets decode to its low
`W(m)` bits. -/
def Obligations.EncodeThenDecodeKeepsTheLowOperandBits : Prop :=
  ∀ (op : Opcode) (x : Nat), ∃ e, encodeMnemonic op.mnemonic x = .ok e ∧
    decode e 0 = .ok (op.instr (x % 2 ^ op.width), op.length)

/-- The spec's own inference in 30_encoding.md section 8: encoding a decoded instruction gives the octets it was decoded from, and
no two octet sequences decode to the same instruction. -/
def Obligations.DecodeThenEncodeGivesTheOctets : Prop :=
  (∀ (S : Octets) (off : Nat) (i : Instr) (n : Nat), decode S off = .ok (i, n) → encode i = (S.drop off).take n) ∧
  (∀ (e e' : Octets) (i : Instr) (n : Nat), decode e 0 = .ok (i, n) → decode e' 0 = .ok (i, n) →
    e.length = n → e'.length = n → e = e')

/-- R65: for each mnemonic and every natural operand, the encoding has the mnemonic's fixed length, and the low three bits of its
first octet are the code. -/
def Obligations.EncoderKeepsLengthAndLowBits : Prop :=
  ∀ (op : Opcode) (x : Nat), ∃ b e, encodeMnemonic op.mnemonic x = .ok (b :: e) ∧
    (b :: e).length = op.length ∧ b &&& 0b111#8 = BitVec.ofNat 8 op.code

/-- The spec's own decision D5 (30_encoding.md section 6): operand bits from the field's width on are dropped, and nothing else. -/
def Obligations.EncoderDropsHighOperandBits : Prop :=
  ∀ (op : Opcode) (x : Nat), encodeMnemonic op.mnemonic x =
    .ok (littleEndianOctets op.length (((x % 2 ^ op.width) <<< 3) ||| op.code))

/-- The spec's own decision D6 (30_encoding.md section 6): a negative operand is refused, an unknown mnemonic is reported first,
and the tag is matched exactly. -/
def Obligations.EncoderRefusals : Prop :=
  (∀ (op : Opcode) (x : Int), x < 0 → encodeMnemonic op.mnemonic x = .error .negativeOperand) ∧
  (∀ (m : Text) (x : Int), (∀ op : Opcode, m ≠ op.mnemonic) → encodeMnemonic m x = .error .unknownMnemonicError)

/-! ## Memory -/

/-- 20_memory.md section 2 with the spec's own decision D4: a read gives the cell, a write changes exactly the cell, and outside
`0..1023` both raise `MemoryFault` with the address. -/
def Obligations.CheckedMemoryAccess : Prop :=
  ∀ (m : Memory) (a v : Int),
    ((0 ≤ a ∧ a ≤ 1023) → memRead m a = .ok (readCell m a.toNat) ∧
      ∃ m', memWrite m a v = .ok m' ∧ readCell m' a.toNat = v ∧
        ∀ b, b ≠ a.toNat → readCell m' b = readCell m b) ∧
    ((a < 0 ∨ 1023 < a) → memRead m a = .error (.memoryFault a) ∧ memWrite m a v = .error (.memoryFault a))

/-- The model's choice (log 3): in the canonical form, memories that read alike are the same list. -/
def Obligations.CanonicalMemoriesThatReadAlikeAreEqual : Prop :=
  ∀ m m' : Memory, m.wf → m'.wf → (∀ a, readCell m a = readCell m' a) → m = m'

/-- R39: a cell reads what the last `STORE` to it before stored, or, if there was none, what it read at the start. -/
def Obligations.CellReadsItsLastStore : Prop :=
  ∀ (s : State) (a k : Nat), a ≤ 1023 →
    ((∀ j, j < k → ¬ (run j s).stores a) → readCell (run k s).mem a = readCell s.mem a) ∧
    (∀ j, j < k → (run j s).stores a → (∀ m, j < m → m < k → ¬ (run m s).stores a) →
      readCell (run k s).mem a = (run j s).acc)

/-! ## Instructions -/

/-- R97: the sign of an integer. -/
def Obligations.SignOfAnInteger : Prop :=
  ∀ x : Int, (x < 0 → sign x = -1) ∧ (x = 0 → sign x = 0) ∧ (0 < x → sign x = 1) ∧
    (sign x = -1 ∨ sign x = 0 ∨ sign x = 1) ∧ (sign x = 0 ↔ x = 0) ∧ (x ≠ 0 → sign (-x) = -sign x)

/-- R98: `LOADC x` is encoded as `LEbytes_4((x << 3) | 1)`, loads its operand into the accumulator, advances by 4, writes nothing
else and raises nothing. -/
def Obligations.LoadcLoadsItsOperand : Prop :=
  ∀ (x : Nat) (s : State), x ≤ 2 ^ 29 - 1 →
    encode (.loadc x) = littleEndianOctets 4 ((x <<< 3) ||| 1) ∧
    exec (.loadc x) s = .next { s with acc := x, ip := s.ip + 4 }

/-- 41_accumulator_memory.md section 2, `SGN x` on a cell that exists: the accumulator gets the sign of the cell, `ip` advances by
3, nothing else changes. -/
def Obligations.SgnLoadsTheSignOfTheCell : Prop :=
  ∀ (x : Nat) (s : State), x ≤ 1023 →
    exec (.sgn x) s = .next { s with acc := sign (readCell s.mem x), ip := s.ip + 3 }

/-- 41_accumulator_memory.md section 2, `LOAD x` on a cell that exists: the address is the exact sum of the old accumulator and the
operand, the accumulator gets the cell, `ip` advances by 1, nothing else changes. -/
def Obligations.LoadReadsTheCellAtAccPlusOffset : Prop :=
  ∀ (x : Nat) (s : State), 0 ≤ s.acc + x → s.acc + x ≤ 1023 →
    exec (.load x) s = .next { s with acc := readCell s.mem (s.acc + x).toNat, ip := s.ip + 1 }

/-- 41_accumulator_memory.md section 2, `STORE x` on a cell that exists: the cell gets the accumulator exactly, every other cell
keeps its value, `ip` advances by 3, nothing else changes. -/
def Obligations.StoreWritesTheAccumulator : Prop :=
  ∀ (x : Nat) (s : State), x ≤ 1023 → ∃ m, exec (.store x) s = .next { s with mem := m, ip := s.ip + 3 } ∧
    readCell m x = s.acc ∧ ∀ b, b ≠ x → readCell m b = readCell s.mem b

/-- The spec's own decision D4 (41_accumulator_memory.md section 2, 60_exceptions.md section 2): `SGN`, `LOAD` and `STORE` on an
address outside `0..1023` write that address to `fault` and nothing else; `ip` does not advance. -/
def Obligations.OutOfRangeAccessWritesOnlyFault : Prop :=
  ∀ (x : Nat) (s : State),
    (1023 < x → exec (.sgn x) s = .next { s with fault := some (x : Int) } ∧
      exec (.store x) s = .next { s with fault := some (x : Int) }) ∧
    ((s.acc + x < 0 ∨ 1023 < s.acc + x) → exec (.load x) s = .next { s with fault := some (s.acc + x) })

/-- The spec's own inference in 60_exceptions.md section 2, with decision D4: in a state without a fault, `SGN x` and `STORE x`
raise one exactly when `x > 1023`, `LOAD x` exactly when `acc + x` is outside `0..1023`, `LOADC` never, and fetch never. -/
def Obligations.MemoryFaultExactlyOutOfRange : Prop :=
  (∀ (x : Nat) (s t : State), s.fault = none →
    (exec (.loadc x) s = .next t → t.fault = none) ∧
    (exec (.sgn x) s = .next t → (t.fault ≠ none ↔ x > 1023)) ∧
    (exec (.load x) s = .next t → (t.fault ≠ none ↔ s.acc + x < 0 ∨ s.acc + x > 1023)) ∧
    (exec (.store x) s = .next t → (t.fault ≠ none ↔ x > 1023))) ∧
  (∀ (S : Octets) (off : Nat) (a : Int), decode S off ≠ .error (.memoryFault a))

/-- R86: after the effect `ip` advances by 4 for `LOADC`, 3 for `SGN` and `STORE`, 1 for `LOAD`, and the effect never reads `ip`:
every instruction whose data address, if it has one, exists has a next state, and moving `ip` beforehand moves it in that state
and changes nothing else. -/
def Obligations.InstructionAdvancesIpAfterItsEffect : Prop :=
  (Opcode.loadc.length = 4 ∧ Opcode.sgn.length = 3 ∧ Opcode.store.length = 3 ∧ Opcode.load.length = 1) ∧
  ∀ (i : Instr) (s : State), (∀ a, dataAddress s.acc i = some a → 0 ≤ a ∧ a ≤ 1023) →
    ∃ t, exec i s = .next t ∧ t.ip = s.ip + i.opcode.length ∧
      ∀ p : Nat, exec i { s with ip := p } = .next { t with ip := p + i.opcode.length }

/-- Frame of `LOADC`, `SGN` and `LOAD` (10_state.md section 2, 20_memory.md section 2): every cell of memory, `halted` and the stream
are unchanged, and `fault` changes only on an address outside `0..1023` (the spec's own decision D4), where all else stays. -/
def Obligations.LoadingInstructionsFrame : Prop :=
  ∀ (i : Instr) (s t : State), (∀ x, i ≠ .store x) → exec i s = .next t →
    (∀ b, readCell t.mem b = readCell s.mem b) ∧ t.halted = s.halted ∧ t.stream = s.stream ∧
    (t.fault = s.fault ∨ ∃ a, dataAddress s.acc i = some a ∧ (a < 0 ∨ 1023 < a) ∧ t = { s with fault := some a })

/-- Frame of `STORE`: the accumulator, `halted` and the stream are unchanged, every cell but the one at its address reads as before,
and `fault` changes only on an address outside `0..1023` (the spec's own decision D4), where all else stays. -/
def Obligations.StoreFrame : Prop :=
  ∀ (x : Nat) (s t : State), exec (.store x) s = .next t →
    t.acc = s.acc ∧ t.halted = s.halted ∧ t.stream = s.stream ∧
    (∀ a : Int, directAddress x = a → ∀ b : Nat, (b : Int) ≠ a → readCell t.mem b = readCell s.mem b) ∧
    (t.fault = s.fault ∨ (1023 < x ∧ t = { s with fault := some (x : Int) }))

/-- The spec's own inference in 70_reset_and_hazards.md section 3: an instruction sees every effect of the one before it; a `LOAD` or
`SGN` after a `STORE` to the same cell reads the stored value. -/
def Obligations.ReadAfterStoreSeesTheStoredValue : Prop :=
  ∀ (x y : Nat) (s : State), x ≤ 1023 → ∃ t, exec (.store x) s = .next t ∧
    (∃ u, exec (.sgn x) t = .next u ∧ u.acc = sign s.acc) ∧
    (s.acc + y = x → ∃ u, exec (.load y) t = .next u ∧ u.acc = s.acc)

/-! ## Steps -/

/-- 40_fetch_decode_execute.md section 1: where the octets at `ip` decode to a well-formed instruction and the core is neither halted
nor faulted, the step is that instruction's execution, whose advance is the decoded length. -/
def Obligations.StepRunsTheDecodedInstruction : Prop :=
  ∀ (s : State) (i : Instr) (n : Nat), s.halted = false → s.fault = none → s.fetch = .ok (i, n) → i.wellFormed = true →
    step s = exec i s ∧ n = i.opcode.length

/-- The spec's own decision D4 (40_fetch_decode_execute.md section 1): a step is enabled exactly when the core is neither halted nor
faulted and `ip < L`. That a state without a step answers a fault is the model's choice (log 5). -/
def Obligations.StepIsEnabledExactly : Prop :=
  ∀ s : State, (∃ t, step s = .next t) ↔ (s.halted = false ∧ s.fault = none ∧ s.ip < s.streamLength)

/-- The model's choice (log 5): in a terminal state the step names the terminal condition. -/
def Obligations.TerminalStepNamesTheReason : Prop :=
  ∀ s : State, (s.halted = true → step s = .fault .silentHalt) ∧
    (∀ a, s.halted = false → s.fault = some a → step s = .fault (.memoryFault a)) ∧
    (s.halted = false → s.fault = none → s.streamLength ≤ s.ip → step s = .fault .exhausted)

/-- R84: on a decode signal the step sets `halted`, changes nothing else, and no further instruction executes. -/
def Obligations.SilentHaltSetsOnlyHalted : Prop :=
  ∀ (s : State) (sig : Signal), s.halted = false → s.fault = none → s.ip < s.streamLength → s.fetch = .error sig →
    step s = .next { s with halted := true } ∧ ∀ k, run k { s with halted := true } = { s with halted := true }

/-- The spec's own decision D4 (60_exceptions.md section 2): a step that records a fault writes nothing else, the address is outside
`0..1023`, and the state is terminal. -/
def Obligations.FaultEntryIsPreciseAndFatal : Prop :=
  ∀ s t : State, step s = .next t → t.fault ≠ s.fault →
    ∃ a, (a < 0 ∨ 1023 < a) ∧ t = { s with fault := some a } ∧ t.terminal = true ∧ ∀ k, run k t = t

/-- 10_state.md section 3 with the spec's own decision D3: `ip` changes only by advancing 1, 3 or 4. -/
def Obligations.IpOnlyAdvances : Prop :=
  ∀ s t : State, step s = .next t → t.ip = s.ip ∨ t.ip = s.ip + 1 ∨ t.ip = s.ip + 3 ∨ t.ip = s.ip + 4

/-- 10_state.md sections 2 and 5: a step changes the accumulator only by `LOADC`, `SGN` or `LOAD`, a cell only by a `STORE` to it, of
the accumulator, and the stream never (the spec's own decision D17). -/
def Obligations.StepWritesOnlyByTheInstructionsNamed : Prop :=
  ∀ s t : State, step s = .next t →
    (t.acc ≠ s.acc → ∃ i n, s.fetch = .ok (i, n) ∧ (i.opcode = .loadc ∨ i.opcode = .sgn ∨ i.opcode = .load)) ∧
    (∀ a, readCell t.mem a ≠ readCell s.mem a → s.fetch = .ok (.store a, 3) ∧ readCell t.mem a = s.acc) ∧
    t.stream = s.stream

/-- The spec's own inference in 40_fetch_decode_execute.md section 1: a step that executes an instruction depends on no octet of the
stream but that instruction's. -/
def Obligations.StepIgnoresOtherOctets : Prop :=
  ∀ (s : State) (S : Octets) (i : Instr) (n : Nat), s.halted = false → s.fault = none → s.fetch = .ok (i, n) →
    (S.drop s.ip).take n = (s.stream.drop s.ip).take n →
    ∃ t, step s = .next t ∧ step { s with stream := S } = .next { t with stream := S }

/-- The invariant of `Sys2Proof/Safety.lean` holds at reset (10_state.md section 5). Its canonical-memory clause is the model's choice
(log 3), and so is the empty stream that the reset state has (log 2). -/
def Obligations.ResetSatisfiesTheInvariant : Prop := Invariant State.reset

/-- The invariant holds in the first state of every run, whatever the stream and the pre-seed (10_state.md section 5,
70_reset_and_hazards.md section 1, with the spec's own decision D9 on a launch's refusal). Its canonical-memory clause is the model's
choice (log 3), and so is the pre-seed's form, a list of pairs (log 9). -/
def Obligations.LaunchSatisfiesTheInvariant : Prop :=
  ∀ (S : Octets) (P : List (Int × Int)) (s : State), launch S P = .ok s → Invariant s

/-- Every step keeps the invariant: `ip` within the stream, a halt only where nothing decodes, a fault only at an instruction whose
address is out of range (10_state.md sections 3 to 5, 60_exceptions.md section 2; parts are the spec's own inferences and decision D4,
log 6), and canonical memory within `0..1023`, a clause that is the model's choice (log 3). -/
def Obligations.EveryStepKeepsTheInvariant : Prop :=
  ∀ s t : State, Invariant s → step s = .next t → Invariant t

/-- The spec's own inference in 10_state.md section 2: every value the machine holds is a `LOADC` operand, a sign or a copy of a value
it held: a property of all those is kept by every step. -/
def Obligations.StepMakesNoOtherValues : Prop :=
  ∀ P : Int → Prop, (∀ x : Nat, x ≤ 2 ^ 29 - 1 → P x) → P (-1) →
    ∀ s t : State, Holds P s → step s = .next t → Holds P t

/-! ## Runs -/

/-- R28: `halted` is false at the start of a run, becomes true only where the decoder signals, is never cleared, and stays false when
the run ends by exhaustion. -/
def Obligations.HaltedOnlyByADecodeSignal : Prop :=
  (∀ (S : Octets) (P : List (Int × Int)) (s : State), launch S P = .ok s → s.halted = false) ∧
  (∀ s t : State, step s = .next t → s.halted = false ∧
    (t.halted = true → s.fetch = .error .truncatedInstruction ∨ ∃ c, s.fetch = .error (.unrecognizedOpcode c))) ∧
  (∀ (s : State) (k : Nat), s.halted = true → (run k s).halted = true) ∧
  (∀ (s : State) (k : Nat), s.halted = false → s.streamLength ≤ s.ip → (run k s).halted = false)

/-- The spec's own decision D16 (40_fetch_decode_execute.md section 3): a terminal state is absorbing. -/
def Obligations.TerminalStatesAreAbsorbing : Prop :=
  ∀ (s : State) (k : Nat), s.terminal = true → run k s = s

/-- The spec's own inference in 40_fetch_decode_execute.md section 3: from every state the run is over after at most `L` steps, and
further steps add nothing. -/
def Obligations.EveryRunEndsWithinStreamLengthSteps : Prop :=
  ∀ s : State, (runToEnd s).terminal = true ∧ ∀ k, s.streamLength ≤ k → run k s = runToEnd s

/-- The spec's own inference in 40_fetch_decode_execute.md section 3: a run ends in exactly one of three ways, exhaustion with
`ip = L`, a silent halt, or a memory fault; and a run of the empty stream is its first state. That a memory fault ends a run is the
spec's own decision D4 (log 6). -/
def Obligations.RunsEndInThreeWays : Prop :=
  ∀ (S : Octets) (P : List (Int × Int)) (s : State), launch S P = .ok s →
    ((runToEnd s).endedByExhaustion ∨ (runToEnd s).endedBySilentHalt ∨ (runToEnd s).endedByMemoryFault) ∧
    (S = [] → s.terminal = true ∧ runToEnd s = s)

/-- The spec's own inference in 40_fetch_decode_execute.md section 4: there is no control transfer; the offsets at which a run takes
steps strictly rise, so nothing executes twice. -/
def Obligations.OffsetsRiseAlongARun : Prop :=
  ∀ (s : State) (j k : Nat), j < k → (run k s).terminal = false →
    (run j s).terminal = false ∧ (run j s).ip < (run k s).ip

/-- Encoder, decoder and sequencer agree (00_scope.md section 1, 40_fetch_decode_execute.md sections 1 and 4): where the stream holds
the encoding of a list of well-formed instructions at `ip`, the run executes exactly that list in order, up to the first fault; that
it stops there is the spec's own decision D4 (log 6). -/
def Obligations.RunExecutesTheEncodedInstructions : Prop :=
  ∀ (is : List Instr) (before after : Octets) (s : State), (∀ i ∈ is, i.wellFormed = true) →
    s.stream = before ++ encodeAll is ++ after → s.ip = before.length → s.halted = false → s.fault = none →
    run is.length s = execAll is s

/-- The spec's OPEN parameters (10_state.md sections 2 and 3, decisions D2 and D3): with cells of at least 30 bits, an instruction
pointer that can hold `L`, and a pre-seed that fits, the finite-width realisation goes through exactly the states of the core. How the finite realisation forms its values is the model's
choice (log 18). -/
def Obligations.FiniteRealisationIsExact : Prop :=
  ∀ (cellWidth ipWidth : Nat) (S : Octets) (P : List (Int × Int)) (s : State), 30 ≤ cellWidth →
    S.length ≤ 2 ^ ipWidth - 1 → (∀ c ∈ P, fitsCell cellWidth c.2 = true) → launch S P = .ok s →
    launchFinite cellWidth S P = .ok s ∧ ∀ k, runFinite cellWidth ipWidth k s = run k s

/-! ## Host -/

/-- R23: the initial state of a run. -/
def Obligations.InitialRegisters : Prop :=
  State.reset.acc = 0 ∧ State.reset.ip = 0 ∧ State.reset.halted = false ∧
  ∀ (S : Octets) (P : List (Int × Int)) (s : State), launch S P = .ok s → s.acc = 0 ∧ s.ip = 0 ∧ s.halted = false

/-- R120: nothing is unspecified after reset: every register has its reset value, a cell the pre-seed names holds a value the
pre-seed gives it, and any other cell reads 0 without a fault. -/
def Obligations.ResetLeavesNothingUnspecified : Prop :=
  ∀ (S : Octets) (P : List (Int × Int)) (s : State), launch S P = .ok s →
    s.acc = 0 ∧ s.ip = 0 ∧ s.halted = false ∧ s.fault = none ∧ s.stream = S ∧
    ∀ a : Int, 0 ≤ a → a ≤ 1023 →
      ((∀ c ∈ P, c.1 ≠ a) → memRead s.mem a = .ok 0) ∧
      ((∃ c ∈ P, c.1 = a) → ∃ v, (a, v) ∈ P ∧ memRead s.mem a = .ok v)

/-- 70_reset_and_hazards.md section 1 with the spec's own decision D9: a launch exists exactly when the pre-seed names no address
outside `0..1023`, and then each pre-seeded cell holds its value. That a pre-seed is a list of pairs is the model's choice (log 9). -/
def Obligations.LaunchAppliesThePreseed : Prop :=
  ∀ (S : Octets) (P : List (Int × Int)),
    ((∃ c ∈ P, c.1 < 0 ∨ 1023 < c.1) → launch S P = .error .launchPreseed) ∧
    ((∀ c ∈ P, 0 ≤ c.1 ∧ c.1 ≤ 1023) → (P.map Prod.fst).Nodup →
      ∃ s, launch S P = .ok s ∧ ∀ c ∈ P, readCell s.mem c.1.toNat = c.2)

/-- 10_state.md section 5 with the spec's own decision D9: the reset state is the launch of the empty stream (the model's choice,
log 2) with the reference pre-seed -5, 0, 10, -1. -/
def Obligations.ResetHasTheReferencePreseed : Prop :=
  launch [] Config.preseed = .ok State.reset ∧
  (readCell State.reset.mem 0 = -5 ∧ readCell State.reset.mem 1 = 0 ∧ readCell State.reset.mem 2 = 10 ∧
    readCell State.reset.mem 3 = -1 ∧ ∀ a, 4 ≤ a → readCell State.reset.mem a = 0) ∧
  State.reset.fault = none

/-- 20_memory.md section 6 with the spec's own decision D10: the dump lists each cell of the inclusive range once, in order; an empty
range gives no record; a range reaching outside `0..1023` is refused. -/
def Obligations.DumpListsTheRange : Prop :=
  ∀ (m : Memory) (first last : Int),
    (first > last → dumpCells m first last = .ok []) ∧
    (first ≤ last → (first < 0 ∨ 1023 < last) → dumpCells m first last = .error .dumpRange) ∧
    (0 ≤ first → first ≤ last → last ≤ 1023 → ∃ d, dumpCells m first last = .ok d ∧
      (d.length : Int) = last - first + 1 ∧
      ∀ (k : Nat) (a v : Int), d[k]? = some (a, v) → a = first + k ∧ v = readCell m a.toNat)

/-- 20_memory.md section 6 with the spec's own decision D10: after a fault the host receives its address and no dump; after exhaustion
or a silent halt it receives the dump. -/
def Obligations.HostReceivesDumpOrFaultReport : Prop :=
  ∀ (s : State) (first last : Int),
    (∀ a, s.fault = some a → report s first last = .ok (.memoryFault a)) ∧
    (s.endedByExhaustion ∨ s.endedBySilentHalt → report s first last = (dumpCells s.mem first last).map .dump)

/-! ## Assembler -/

/-- 30_encoding.md section 9 with the spec's own decision D12: blank and comment-only lines produce no instruction. -/
def Obligations.BlankAndCommentLinesGiveNothing : Prop :=
  ∀ blank comment : Text, (∀ c ∈ blank, isWhitespace c = true) →
    assembleLine blank = .ok none ∧ assembleLine (blank ++ ';' :: comment) = .ok none

/-- 30_encoding.md section 9 with the spec's own decisions D11 to D14: which lines assemble, and how the others fail. A line is its
`pieces`, each a token and the whitespace after it, between whitespace and an optional comment. No token: no instruction. Any other
number than two: `ParseError`. Two: an unknown mnemonic is `UnknownMnemonicError` whatever the operand token is; with a mnemonic in
any case, an operand token that is no integer is `ParseError`, and an integer gives that instruction. -/
def Obligations.InstructionLinesAssemble : Prop :=
  (Opcode.loadc.mnemonic = "LOADC".toList ∧ Opcode.sgn.mnemonic = "SGN".toList ∧ Opcode.load.mnemonic = "LOAD".toList ∧
    Opcode.store.mnemonic = "STORE".toList) ∧
  ∀ (space lead rest : Text) (pieces : List (Text × Text)), space = [' ', '\t', '\n', '\x0b', '\x0c', '\r'] →
    (∀ c ∈ lead, c ∈ space) → (rest = [] ∨ ∃ comment, rest = ';' :: comment) →
    (∀ p ∈ pieces, p.1 ≠ [] ∧ (∀ c ∈ p.1, c ∉ space ∧ c ≠ ';') ∧ ∀ c ∈ p.2, c ∈ space) →
    (∀ p ∈ pieces.dropLast, p.2 ≠ []) →
    let answer := assembleLine (lead ++ pieces.flatMap (fun p => p.1 ++ p.2) ++ rest)
    (pieces = [] → answer = .ok none) ∧
    (pieces.length ≠ 0 → pieces.length ≠ 2 → answer = .error .parseError) ∧
    ∀ m operand w w' : Text, pieces = [(m, w), (operand, w')] →
      ((∀ op : Opcode, m.map Char.toUpper ≠ op.mnemonic) → answer = .error .unknownMnemonicError) ∧
      ∀ op : Opcode, m.map Char.toUpper = op.mnemonic →
        (parseInteger operand = none → answer = .error .parseError) ∧
        (∀ x : Int, parseInteger operand = some x → answer = .ok (some (op, x)))

/-- The spec's own decision D11: a token is an integer exactly when it is an optional sign and then one or more decimal digits, leading
zeros allowed, and its value is then theirs in decimal; so every other token is none. In particular a natural's decimal numeral,
with or without a sign, is an integer token. -/
def Obligations.IntegerTokensAreDecimal : Prop :=
  (∀ (token : Text) (x : Int), parseInteger token = some x ↔
    ∃ (sign digits : Text) (n : Nat), token = sign ++ digits ∧ digits ≠ [] ∧
      (∀ c ∈ digits, c ∈ ['0', '1', '2', '3', '4', '5', '6', '7', '8', '9']) ∧
      n = digits.foldl (fun value c => 10 * value + (c.toNat - '0'.toNat)) 0 ∧
      ((sign = [] ∨ sign = ['+']) ∧ x = n ∨ sign = ['-'] ∧ x = -n)) ∧
  ∀ n : Nat, parseInteger (Nat.toDigits 10 n) = some (n : Int) ∧
    parseInteger ('+' :: Nat.toDigits 10 n) = some (n : Int) ∧ parseInteger ('-' :: Nat.toDigits 10 n) = some (-(n : Int))

/-- 30_encoding.md section 9 with the spec's own decision D14: letter case never matters to the assembler. -/
def Obligations.AssemblyIgnoresLetterCase : Prop :=
  ∀ line : Text, assembleLine (line.map upperCase) = assembleLine line

/-- 30_encoding.md section 9: a line without an instruction adds nothing to the outputs; a line with one adds its encoding and its
trace record; program order is kept in both outputs; and the first line that fails, by itself or in the encoder, aborts the whole. -/
def Obligations.ProgramsAssembleInOrderOrNotAtAll : Prop :=
  assembleProgram [] = .ok ([], []) ∧
  (∀ line : Text, assembleLine line = .ok none → assembleProgram [line] = .ok ([], [])) ∧
  (∀ (line : Text) (op : Opcode) (x : Int) (e : Octets), assembleLine line = .ok (some (op, x)) →
    encodeMnemonic op.mnemonic x = .ok e →
    assembleProgram [line] = .ok (e, [{ mnemonic := op.mnemonic, operand := x, machineCode := machineCode e }])) ∧
  (∀ (p q : List Text) (S S' : Octets) (T T' : List TraceRecord), assembleProgram p = .ok (S, T) →
    assembleProgram q = .ok (S', T') → assembleProgram (p ++ q) = .ok (S ++ S', T ++ T')) ∧
  (∀ (p q : List Text) (line : Text) (S : Octets) (T : List TraceRecord) (e : Signal), assembleProgram p = .ok (S, T) →
    (assembleLine line = .error e ∨
      ∃ (op : Opcode) (x : Int), assembleLine line = .ok (some (op, x)) ∧ encodeMnemonic op.mnemonic x = .error e) →
    assembleProgram (p ++ line :: q) = .error e)

/-- 30_encoding.md section 9: the stream of an assembled program is the encodings of its trace records in order; each record shows its
own octets, as `0x` and two upper-case hexadecimal digits per octet, separated by single spaces, in stream order. -/
def Obligations.TraceRecordsTheStream : Prop :=
  (∀ (lines : List Text) (S : Octets) (T : List TraceRecord), assembleProgram lines = .ok (S, T) →
    ∃ es : List Octets, S = es.flatten ∧
      List.Forall₂ (fun r e => encodeMnemonic r.mnemonic r.operand = .ok e ∧ r.machineCode = machineCode e) T es) ∧
  ∀ (digit : Nat → Char) (e : Octets), (∀ d, digit d = "0123456789ABCDEF".toList.getD d '0') →
    machineCode e =
      List.intercalate [' '] (e.map fun b => ['0', 'x', digit (b.toNat / 16), digit (b.toNat % 16)])

/-- The spec's own inference that a stream ending at an instruction boundary does not halt silently (70_reset_and_hazards.md section 3,
60_exceptions.md section 1): the run of an assembled program never does. -/
def Obligations.AssembledProgramsNeverHaltSilently : Prop :=
  ∀ (lines : List Text) (S : Octets) (T : List TraceRecord) (P : List (Int × Int)) (s : State),
    assembleProgram lines = .ok (S, T) → launch S P = .ok s → (runToEnd s).halted = false

/-- 70_reset_and_hazards.md section 3 with the spec's own decision D4: the run of an assembled program whose every data address is in
`0..1023` when it is used ends by exhaustion. -/
def Obligations.AssembledProgramsWithGoodAddressesEndByExhaustion : Prop :=
  ∀ (lines : List Text) (S : Octets) (T : List TraceRecord) (P : List (Int × Int)) (s : State),
    assembleProgram lines = .ok (S, T) → launch S P = .ok s → (∀ k, (run k s).accessInRange) →
    (runToEnd s).endedByExhaustion
end

