-- ==== Sys2Proof/Laws/Codec.lean ====
section
/-!
SUPPORT. The laws of the codec's parts: slicing, little-endian assembly, packing, and what the decoder can answer.
-/

namespace Sys2Proof

@[simp] theorem littleEndianOctets_length (n v : Nat) : (littleEndianOctets n v).length = n := by
  induction n generalizing v with
  | zero => rfl
  | succ n ih => simp [littleEndianOctets, ih]

/-- Assembling the octets of a value gives the value's low `8n` bits. -/
theorem littleEndian_littleEndianOctets (n v : Nat) : littleEndian (littleEndianOctets n v) = v % 256 ^ n := by
  induction n generalizing v with
  | zero => simp [littleEndianOctets, littleEndian, Nat.mod_one]
  | succ n ih =>
    rw [littleEndianOctets, littleEndian, ih, BitVec.toNat_ofNat, show 256 ^ (n + 1) = 256 * 256 ^ n from Nat.pow_succ',
      Nat.mod_mul]

/-- Slicing the assembled value into octets again gives the octets. -/
theorem littleEndianOctets_littleEndian (bs : Octets) : littleEndianOctets bs.length (littleEndian bs) = bs := by
  induction bs with
  | nil => rfl
  | cons b bs ih =>
    have hb := b.isLt
    have hdiv : (b.toNat + 256 * littleEndian bs) / 256 = littleEndian bs := by omega
    simp only [List.length_cons, littleEndian, littleEndianOctets, hdiv, ih, List.cons.injEq, and_true]
    apply BitVec.eq_of_toNat_eq
    simp only [BitVec.toNat_ofNat]
    omega

theorem opcodeField_eq (b0 : Octet) : opcodeField b0 = b0.toNat % 8 := by
  simp [opcodeField, slice]

theorem operandField_eq (w : Nat) : operandField w = w / 8 := by
  simp [operandField, Nat.shiftRight_eq_div_pow]

theorem code_lt (op : Opcode) : op.code < 8 := by cases op <;> decide

/-- The packed value as arithmetic: the code lies below the operand and they do not overlap (R53). -/
theorem packed_eq (op : Opcode) (x : Nat) : op.packed x = 8 * x + op.code := by
  have h := Nat.shiftLeft_add_eq_or_of_lt (b := op.code) (i := 3) (code_lt op) x
  rw [Opcode.packed, ← h, Nat.shiftLeft_eq]
  omega

theorem ofCode_code (op : Opcode) : Opcode.ofCode op.code = some op := by cases op <;> rfl

theorem code_of_ofCode {c : Nat} {op : Opcode} (h : Opcode.ofCode c = some op) : op.code = c := by
  unfold Opcode.ofCode at h
  split at h <;> cases h <;> rfl

theorem ofMnemonic_mnemonic (op : Opcode) : Opcode.ofMnemonic op.mnemonic = some op := by cases op <;> rfl

theorem mnemonic_of_ofMnemonic {m : Text} {op : Opcode} (h : Opcode.ofMnemonic m = some op) : op.mnemonic = m := by
  unfold Opcode.ofMnemonic at h
  split at h
  · cases h; exact Eq.symm ‹_›
  · split at h
    · cases h; exact Eq.symm ‹_›
    · split at h
      · cases h; exact Eq.symm ‹_›
      · split at h
        · cases h; exact Eq.symm ‹_›
        · cases h

@[simp] theorem instr_opcode (op : Opcode) (x : Nat) : (op.instr x).opcode = op := by cases op <;> rfl
@[simp] theorem instr_operand (op : Opcode) (x : Nat) : (op.instr x).operand = x := by cases op <;> rfl
@[simp] theorem opcode_instr_operand (i : Instr) : i.opcode.instr i.operand = i := by cases i <;> rfl

@[simp] theorem opcode_encode_length (op : Opcode) (x : Nat) : (op.encode x).length = op.length := by
  simp [Opcode.encode]

/-- Everything a successful decode says (R66): the code's kind, an instruction that ends inside the stream, and its operand. -/
theorem decode_ok {S : Octets} {off : Nat} {i : Instr} {n : Nat} (h : decode S off = .ok (i, n)) :
    ∃ b0 op, S[off]? = some b0 ∧ Opcode.ofCode (opcodeField b0) = some op ∧ off + op.length ≤ S.length ∧
      n = op.length ∧ i = op.instr (operandField (fetchWord S off op.length)) := by
  unfold decode at h
  split at h
  · cases h
  · next b0 hb =>
    split at h
    · cases h
    · next op hop =>
      split at h
      · cases h
      · next hle =>
        cases h
        exact ⟨b0, op, hb, hop, by omega, rfl, rfl⟩

/-- A decoded instruction's length is its kind's. -/
theorem decode_ok_length {S : Octets} {off : Nat} {i : Instr} {n : Nat} (h : decode S off = .ok (i, n)) :
    n = i.opcode.length := by
  obtain ⟨b0, op, -, -, -, rfl, rfl⟩ := decode_ok h
  simp

/-- Everything a decode signal says (R66, R69). -/
theorem decode_error {S : Octets} {off : Nat} {sig : Signal} (h : decode S off = .error sig) :
    sig = .truncatedInstruction ∨ ∃ c, sig = .unrecognizedOpcode c ∧ Opcode.ofCode c = none := by
  unfold decode at h
  split at h
  · cases h; exact .inl rfl
  · split at h
    · next hn => cases h; exact .inr ⟨_, rfl, hn⟩
    · split at h <;> cases h
      exact .inl rfl

end Sys2Proof
end

