-- ==== Sys2Proof/Laws/Assembler.lean ====
section
/-!
SUPPORT. What characters, splitting, digits, a record and a program can answer.
-/

namespace Sys2Proof.Machine

/-! ## Characters -/

theorem char_eq_of_toNat {c d : Char} (h : c.toNat = d.toNat) : c = d := Char.ext (UInt32.toNat_inj.mp h)

/-- The whitespace characters, one by one (the spec's decision D12). -/
theorem isWhitespace_iff (c : Char) : isWhitespace c = true ↔ c ∈ [' ', '\t', '\n', '\x0b', '\x0c', '\r'] := by
  constructor
  · intro h
    simp only [isWhitespace, Bool.or_eq_true, Bool.and_eq_true, decide_eq_true_eq] at h
    have h' : c.toNat = 32 ∨ c.toNat = 9 ∨ c.toNat = 10 ∨ c.toNat = 11 ∨ c.toNat = 12 ∨ c.toNat = 13 := by omega
    rcases h' with h | h | h | h | h | h
    · rw [char_eq_of_toNat (d := ' ') h]; simp
    · rw [char_eq_of_toNat (d := '\t') h]; simp
    · rw [char_eq_of_toNat (d := '\n') h]; simp
    · rw [char_eq_of_toNat (d := '\x0b') h]; simp
    · rw [char_eq_of_toNat (d := '\x0c') h]; simp
    · rw [char_eq_of_toNat (d := '\r') h]; simp
  · have : ∀ d ∈ [' ', '\t', '\n', '\x0b', '\x0c', '\r'], isWhitespace d = true := List.all_eq_true.mp (by decide)
    exact this c

/-- Everything folding to upper case can answer. -/
theorem upperCase_cases (c : Char) :
    (97 ≤ c.toNat ∧ c.toNat ≤ 122 ∧ (upperCase c).toNat = c.toNat - 32) ∨
    (¬ (97 ≤ c.toNat ∧ c.toNat ≤ 122) ∧ upperCase c = c) := by
  unfold upperCase
  split
  · next h =>
    refine .inl ⟨h.1, h.2, ?_⟩
    have hv : (c.toNat - 32).isValidChar := .inl (by omega)
    rw [Char.ofNat, dif_pos hv]; rfl
  · next h => exact .inr ⟨h, rfl⟩

/-- Folding to upper case is Lean's own for ASCII letters. -/
theorem upperCase_eq_toUpper (c : Char) : upperCase c = c.toUpper := by
  apply char_eq_of_toNat
  unfold Char.toUpper
  rcases upperCase_cases c with ⟨h1, h2, h3⟩ | ⟨h, h'⟩
  · rw [h3, dif_pos ⟨UInt32.le_iff_toNat_le.mpr h1, UInt32.le_iff_toNat_le.mpr h2⟩]
    show _ = (c.val + ('A'.val - 'a'.val)).toNat
    rw [UInt32.toNat_add, show (('A'.val - 'a'.val) : UInt32).toNat = 4294967264 by decide]
    show _ = (c.toNat + _) % _
    omega
  · rw [h', dif_neg]
    exact fun hc => h ⟨UInt32.le_iff_toNat_le.mp hc.1, UInt32.le_iff_toNat_le.mp hc.2⟩

/-! ## Splitting -/

/-- A text without `;` has no comment. -/
theorem stripComment_eq_self (t : Text) (h : ∀ c ∈ t, c ≠ ';') : stripComment t = t := by
  unfold stripComment
  rw [List.takeWhile_eq_self_iff]; simpa using h

/-- What stands before the first `;` is kept, and nothing after it. -/
theorem stripComment_semicolon (t comment : Text) (h : ∀ c ∈ t, c ≠ ';') : stripComment (t ++ ';' :: comment) = t := by
  unfold stripComment
  rw [List.takeWhile_append_of_pos (by simpa using h)]
  simp

/-- Whitespace ends the token gathered so far. -/
theorem tokensAfter_whitespace (w rest cur : Text) (h : ∀ c ∈ w, isWhitespace c = true) (hne : w ≠ []) :
    tokensAfter cur (w ++ rest) = flushToken cur ++ tokensAfter [] rest := by
  induction w generalizing cur with
  | nil => exact absurd rfl hne
  | cons c w ih =>
    simp only [List.cons_append, tokensAfter, h c (by simp), if_true]
    cases w with
    | nil => rfl
    | cons d w => rw [ih [] (fun e he => h e (by simp [he])) (by simp)]; rfl

/-- Characters other than whitespace lengthen the token gathered so far. -/
theorem tokensAfter_token (t rest cur : Text) (h : ∀ c ∈ t, isWhitespace c = false) :
    tokensAfter cur (t ++ rest) = tokensAfter (cur ++ t) rest := by
  induction t generalizing cur with
  | nil => simp
  | cons c t ih =>
    simp only [List.cons_append, tokensAfter, h c (by simp)]
    rw [if_neg (by simp), ih _ fun d hd => h d (by simp [hd])]
    simp

/-- Leading whitespace is ignored. -/
theorem tokens_whitespace (w rest : Text) (h : ∀ c ∈ w, isWhitespace c = true) : tokens (w ++ rest) = tokens rest := by
  cases w with
  | nil => rfl
  | cons c w => rw [tokens, tokensAfter_whitespace _ _ _ h (by simp)]; rfl

/-- Everything splitting can answer: the tokens of a text are its pieces, each a token and the whitespace after it. -/
theorem tokens_pieces (pieces : List (Text × Text))
    (hp : ∀ p ∈ pieces, p.1 ≠ [] ∧ (∀ c ∈ p.1, isWhitespace c = false) ∧ ∀ c ∈ p.2, isWhitespace c = true)
    (hl : ∀ p ∈ pieces.dropLast, p.2 ≠ []) :
    tokens (pieces.flatMap fun p => p.1 ++ p.2) = pieces.map Prod.fst := by
  unfold tokens
  induction pieces with
  | nil => rfl
  | cons p ps ih =>
    obtain ⟨hne, ht, hw⟩ := hp p (by simp)
    have hflush : flushToken p.1 = [p.1] := by cases h : p.1 with | nil => exact absurd h hne | cons => rfl
    rw [List.flatMap_cons, List.append_assoc, tokensAfter_token _ _ _ ht, List.nil_append]
    cases ps with
    | nil =>
      rcases p with ⟨t, _ | ⟨b, w⟩⟩
      · simpa [tokensAfter] using hflush
      · rw [List.flatMap_nil, tokensAfter_whitespace _ _ _ hw (by simp), hflush]; rfl
    | cons q ps =>
      rw [tokensAfter_whitespace _ _ _ hw (hl p (by simp)), ih (fun r hr => hp r (by simp_all)) (fun r hr => hl r (by simp_all)),
        hflush]
      rfl

/-! ## Digits -/

/-- A digit's value, and that every other character has none. -/
theorem digitValue_eq_some {c : Char} {d : Nat} : digitValue c = some d ↔ (48 ≤ c.toNat ∧ c.toNat ≤ 57) ∧ d = c.toNat - 48 := by
  unfold digitValue
  split <;> simp_all [eq_comm]

/-- Everything the reading of digits can answer: their decimal value, and only if all are digits. -/
theorem digitsAfter_eq_some {t : Text} {acc n : Nat} : digitsAfter acc t = some n ↔
    (∀ c ∈ t, 48 ≤ c.toNat ∧ c.toNat ≤ 57) ∧ n = t.foldl (fun value c => 10 * value + (c.toNat - 48)) acc := by
  induction t generalizing acc with
  | nil => simp [digitsAfter, eq_comm]
  | cons c t ih =>
    simp only [digitsAfter, List.forall_mem_cons, List.foldl_cons]
    split
    · next d hd =>
      obtain ⟨hc, rfl⟩ := digitValue_eq_some.mp hd
      rw [ih]; simp [hc]
    · next hd =>
      have hc : ¬ (48 ≤ c.toNat ∧ c.toNat ≤ 57) := fun hc => by simp [digitValue, hc] at hd
      simp [hc]

/-! ## Lines and programs -/

/-- Everything the record of a line with an instruction says (R75, R77). -/
theorem assembleRecord_some {line : Text} {e : Octets} {r : TraceRecord} (h : assembleRecord line = .ok (some (e, r))) :
    ∃ op : Opcode, r.mnemonic = op.mnemonic ∧ encodeMnemonic r.mnemonic r.operand = .ok e ∧
      r.machineCode = machineCode e := by
  unfold assembleRecord at h
  split at h
  · cases h
  · cases h
  · split at h <;> cases h
    rename_i op x _ _ he
    exact ⟨op, rfl, he, rfl⟩

/-- Everything the assembly of a program with a first line says (R75). -/
theorem assembleProgram_cons {line : Text} {lines : List Text} {S : Octets} {T : List TraceRecord}
    (h : assembleProgram (line :: lines) = .ok (S, T)) :
    (assembleRecord line = .ok none ∧ assembleProgram lines = .ok (S, T)) ∨
    ∃ e r S' T', assembleRecord line = .ok (some (e, r)) ∧ assembleProgram lines = .ok (S', T') ∧
      S = e ++ S' ∧ T = r :: T' := by
  simp only [assembleProgram] at h
  split at h
  · cases h
  · next hr => exact .inl ⟨hr, h⟩
  · next e r hr =>
    split at h
    · cases h
    · next S' T' hp =>
      cases h
      exact .inr ⟨e, r, S', T', hr, hp, rfl, rfl⟩

end Sys2Proof.Machine
end

