-- ==== Sys2Proof/Laws/Memory.lean ====
section
/-!
SUPPORT. The laws of the data memory: a cell reads what was last written to it, a write leaves every other cell alone, and every
operation keeps the canonical form.
-/

namespace Sys2Proof.Machine

theorem inRange_iff {a : Int} : inRange a = true ↔ 0 ≤ a ∧ a ≤ 1023 := by
  have hsize : (Config.memSize : Int) = 1024 := rfl
  simp only [inRange, hsize, Bool.and_eq_true, decide_eq_true_eq]
  omega

theorem inRange_false_iff {a : Int} : inRange a = false ↔ a < 0 ∨ 1023 < a := by
  rw [← Bool.not_eq_true, inRange_iff]
  omega

theorem readCell_eraseCell_same (m : Memory) (a : Nat) : readCell (eraseCell a m) a = unlistedCell := by
  induction m with
  | nil => rfl
  | cons c m ih =>
    by_cases h : c.1 = a
    · simpa [eraseCell, h] using ih
    · simpa [eraseCell, h, readCell] using ih

theorem readCell_eraseCell_other (m : Memory) {a b : Nat} (hb : b ≠ a) :
    readCell (eraseCell a m) b = readCell m b := by
  induction m with
  | nil => rfl
  | cons c m ih =>
    by_cases h : c.1 = a
    · have hc : c.1 ≠ b := fun h' => hb (h' ▸ h)
      simpa [eraseCell, h, readCell, hc, hb.symm] using ih
    · simp only [eraseCell, ne_eq, h, not_false_eq_true, decide_true, List.filter_cons_of_pos, readCell]
      split
      · rfl
      · simpa [eraseCell] using ih

/-- No pair of the list is for cell `a`. -/
def Unlisted (a : Nat) (m : Memory) : Prop := ∀ c ∈ m, c.1 ≠ a

theorem unlisted_eraseCell (a : Nat) (m : Memory) : Unlisted a (eraseCell a m) := by
  intro c hc
  simpa using (List.mem_filter.mp hc).2

theorem readCell_insertCell_same {m : Memory} {a : Nat} (v : Int) (hm : Unlisted a m) :
    readCell (insertCell a v m) a = v := by
  induction m with
  | nil => simp [insertCell, readCell]
  | cons c m ih =>
    simp only [insertCell]
    split
    · simp [readCell]
    · have hc : c.1 ≠ a := hm c (by simp)
      simpa [readCell, hc] using ih fun d hd => hm d (by simp [hd])

theorem readCell_insertCell_other (m : Memory) {a b : Nat} (v : Int) (hb : b ≠ a) :
    readCell (insertCell a v m) b = readCell m b := by
  induction m with
  | nil => simp [insertCell, readCell, hb.symm]
  | cons c m ih =>
    simp only [insertCell]
    split
    · simp [readCell, hb.symm]
    · simp only [readCell, ih]

/-- A cell reads what was written to it. -/
@[simp] theorem readCell_writeCell_same (m : Memory) (a : Nat) (v : Int) : readCell (writeCell m a v) a = v := by
  unfold writeCell
  split
  · next h => rw [readCell_eraseCell_same, h]
  · exact readCell_insertCell_same v (unlisted_eraseCell a m)

/-- A write leaves every other cell alone. -/
theorem readCell_writeCell_other (m : Memory) {a b : Nat} (v : Int) (hb : b ≠ a) :
    readCell (writeCell m a v) b = readCell m b := by
  unfold writeCell
  split
  · exact readCell_eraseCell_other m hb
  · rw [readCell_insertCell_other _ v hb, readCell_eraseCell_other m hb]

/-- What a cell reads after a write. -/
theorem readCell_writeCell (m : Memory) (a b : Nat) (v : Int) :
    readCell (writeCell m a v) b = if b = a then v else readCell m b := by
  split
  · next h => rw [h, readCell_writeCell_same]
  · next h => exact readCell_writeCell_other m v h

theorem mem_insertCell {m : Memory} {a : Nat} {v : Int} {c : Nat × Int} (h : c ∈ insertCell a v m) :
    c = (a, v) ∨ c ∈ m := by
  induction m with
  | nil => simpa [insertCell] using h
  | cons d m ih =>
    simp only [insertCell] at h
    split at h
    · simpa using h
    · rcases List.mem_cons.mp h with rfl | h
      · simp
      · rcases ih h with h | h
        · exact .inl h
        · simp [h]

theorem eraseCell_wf {m : Memory} (h : m.wf) (a : Nat) : (eraseCell a m : Memory).wf :=
  ⟨h.1.filter _, fun c hc => h.2 c (List.mem_filter.mp hc).1⟩

theorem insertCell_wf {m : Memory} {a : Nat} {v : Int} (h : m.wf) (hm : Unlisted a m) (ha : a < Config.memSize)
    (hv : v ≠ unlistedCell) : (insertCell a v m : Memory).wf := by
  refine ⟨?_, fun c hc => ?_⟩
  · induction m with
    | nil => simp [insertCell]
    | cons d m ih =>
      have hd := List.pairwise_cons.mp h.1
      simp only [insertCell]
      split
      · next hlt =>
        refine List.pairwise_cons.mpr ⟨fun c hc => ?_, h.1⟩
        rcases List.mem_cons.mp hc with rfl | hc
        · exact hlt
        · exact Nat.lt_trans hlt (hd.1 c hc)
      · next hlt =>
        refine List.pairwise_cons.mpr ⟨fun c hc => ?_, ?_⟩
        · rcases mem_insertCell hc with rfl | hc
          · have := hm d (by simp)
            show d.1 < a
            omega
          · exact hd.1 c hc
        · exact ih ⟨hd.2, fun c hc => h.2 c (by simp [hc])⟩ fun c hc => hm c (by simp [hc])
  · rcases mem_insertCell hc with rfl | hc
    · exact ⟨hv, ha⟩
    · exact h.2 c hc

/-- A write to an existing cell keeps the canonical form. -/
theorem writeCell_wf {m : Memory} (h : m.wf) {a : Nat} (ha : a < Config.memSize) (v : Int) :
    (writeCell m a v : Memory).wf := by
  unfold writeCell
  split
  · exact eraseCell_wf h a
  · next hv => exact insertCell_wf (eraseCell_wf h a) (unlisted_eraseCell a m) ha hv

theorem foldl_writeCell_wf (P : List (Int × Int)) (hP : ∀ c ∈ P, inRange c.1 = true) :
    ∀ {m : Memory}, m.wf → (P.foldl (fun m c => writeCell m c.1.toNat c.2) m : Memory).wf := by
  induction P with
  | nil => exact fun h => h
  | cons c P ih =>
    intro m h
    refine ih (fun d hd => hP d (by simp [hd])) (writeCell_wf h ?_ _)
    have := inRange_iff.mp (hP c (by simp))
    simp only [Config.memSize]
    omega

/-- The memory of a launch is canonical. -/
theorem preseeded_wf {P : List (Int × Int)} (hP : ∀ c ∈ P, inRange c.1 = true) : (preseeded P : Memory).wf :=
  foldl_writeCell_wf P hP ⟨List.Pairwise.nil, fun _ h => absurd h (by simp)⟩

/-- The memory of the reset state is canonical. -/
theorem reset_mem_wf : State.reset.mem.wf := by decide

end Sys2Proof.Machine
end

