-- ==== Sys2Proof/Laws/PerInstr.lean ====
section
/-!
SUPPORT. Facts stated per instruction, one lemma per constructor: the packed value of a well-formed instruction fits its word,
so the encoder's cut to `8n` bits (R63) loses nothing of it.
-/

namespace Sys2Proof.Laws.PackedFits

/-- The packed value of a well-formed instruction is below `2^(8n)`. -/
def Statement (i : Instr) : Prop :=
  i.wellFormed = true → i.opcode.packed i.operand < 2 ^ (8 * i.opcode.length)

theorem loadc (x : Nat) : Statement (.loadc x) := by
  intro h
  rw [packed_eq]
  simp only [Instr.wellFormed, decide_eq_true_eq] at h
  simp only [Instr.opcode, Instr.operand, Opcode.code, Opcode.length]
  omega

theorem sgn (x : Nat) : Statement (.sgn x) := by
  intro h
  rw [packed_eq]
  simp only [Instr.wellFormed, decide_eq_true_eq] at h
  simp only [Instr.opcode, Instr.operand, Opcode.code, Opcode.length]
  omega

theorem load (x : Nat) : Statement (.load x) := by
  intro h
  rw [packed_eq]
  simp only [Instr.wellFormed, decide_eq_true_eq] at h
  simp only [Instr.opcode, Instr.operand, Opcode.code, Opcode.length]
  omega

theorem store (x : Nat) : Statement (.store x) := by
  intro h
  rw [packed_eq]
  simp only [Instr.wellFormed, decide_eq_true_eq] at h
  simp only [Instr.opcode, Instr.operand, Opcode.code, Opcode.length]
  omega

end Sys2Proof.Laws.PackedFits
end

