-- ==== Sys2Proof/Laws/State.lean ====
section
/-!
SUPPORT. One lemma per field per update of the state, so that no proof unfolds a record update.
-/

namespace Sys2Proof.Machine

variable (s : State) (v : Int) (m : Memory) (n : Nat) (sig : Signal)

@[simp] theorem setAcc_mem : (s.setAcc v).mem = s.mem := rfl
@[simp] theorem setAcc_acc : (s.setAcc v).acc = v := rfl
@[simp] theorem setAcc_ip : (s.setAcc v).ip = s.ip := rfl
@[simp] theorem setAcc_halted : (s.setAcc v).halted = s.halted := rfl
@[simp] theorem setAcc_fault : (s.setAcc v).fault = s.fault := rfl
@[simp] theorem setAcc_stream : (s.setAcc v).stream = s.stream := rfl

@[simp] theorem setMem_mem : (s.setMem m).mem = m := rfl
@[simp] theorem setMem_acc : (s.setMem m).acc = s.acc := rfl
@[simp] theorem setMem_ip : (s.setMem m).ip = s.ip := rfl
@[simp] theorem setMem_halted : (s.setMem m).halted = s.halted := rfl
@[simp] theorem setMem_fault : (s.setMem m).fault = s.fault := rfl
@[simp] theorem setMem_stream : (s.setMem m).stream = s.stream := rfl

@[simp] theorem advance_mem : (s.advance n).mem = s.mem := rfl
@[simp] theorem advance_acc : (s.advance n).acc = s.acc := rfl
@[simp] theorem advance_ip : (s.advance n).ip = s.ip + n := rfl
@[simp] theorem advance_halted : (s.advance n).halted = s.halted := rfl
@[simp] theorem advance_fault : (s.advance n).fault = s.fault := rfl
@[simp] theorem advance_stream : (s.advance n).stream = s.stream := rfl

@[simp] theorem takeSignal_mem : (s.takeSignal sig).mem = s.mem := by cases sig <;> rfl
@[simp] theorem takeSignal_acc : (s.takeSignal sig).acc = s.acc := by cases sig <;> rfl
@[simp] theorem takeSignal_ip : (s.takeSignal sig).ip = s.ip := by cases sig <;> rfl
@[simp] theorem takeSignal_stream : (s.takeSignal sig).stream = s.stream := by cases sig <;> rfl

/-- A decode signal sets `halted` and nothing else (R84). -/
@[simp] theorem takeSignal_truncated : s.takeSignal .truncatedInstruction = { s with halted := true } := rfl
@[simp] theorem takeSignal_unrecognized (c : Nat) :
    s.takeSignal (.unrecognizedOpcode c) = { s with halted := true } := rfl

/-- `MemoryFault(a)` writes `fault` and nothing else (R106). -/
@[simp] theorem takeSignal_memoryFault (a : Int) : s.takeSignal (.memoryFault a) = { s with fault := some a } := rfl

end Sys2Proof.Machine
end

