-- ==== Sys2Proof/Laws/Step.lean ====
section
/-!
SUPPORT. What each shared operation, each meaning and one step can do, said once. Later proofs cite these lemmas and unfold
nothing.
-/

namespace Sys2Proof.Machine

/-! ## Shared operations -/

theorem memRead_ok {m : Memory} {a v : Int} (h : memRead m a = .ok v) : inRange a = true ∧ v = readCell m a.toNat := by
  unfold memRead at h
  split at h <;> cases h
  exact ⟨‹_›, rfl⟩

theorem memRead_error {m : Memory} {a : Int} {sig : Signal} (h : memRead m a = .error sig) :
    inRange a = false ∧ sig = .memoryFault a := by
  unfold memRead at h
  split at h <;> cases h
  rename_i hn
  exact ⟨by simpa using hn, rfl⟩

theorem memWrite_ok {m m' : Memory} {a v : Int} (h : memWrite m a v = .ok m') :
    inRange a = true ∧ m' = writeCell m a.toNat v := by
  unfold memWrite at h
  split at h <;> cases h
  exact ⟨‹_›, rfl⟩

theorem memWrite_error {m : Memory} {a v : Int} {sig : Signal} (h : memWrite m a v = .error sig) :
    inRange a = false ∧ sig = .memoryFault a := by
  unfold memWrite at h
  split at h <;> cases h
  rename_i hn
  exact ⟨by simpa using hn, rfl⟩

/-- A checked write keeps the canonical form. -/
theorem memWrite_wf {m m' : Memory} {a v : Int} (hm : m.wf) (h : memWrite m a v = .ok m') : m'.wf := by
  obtain ⟨ha, rfl⟩ := memWrite_ok h
  have := inRange_iff.mp ha
  exact writeCell_wf hm (by simp only [Config.memSize]; omega) v

/-- `complete` always answers a next state: the effect's state advanced, or the signal taken in the old state. -/
theorem complete_next {op : Opcode} {s t : State} {r : Except Signal State} (h : complete op s r = .next t) :
    (∃ u, r = .ok u ∧ t = u.advance op.length) ∨ (∃ sig, r = .error sig ∧ t = s.takeSignal sig) := by
  cases r with
  | ok u => cases h; exact .inl ⟨u, rfl, rfl⟩
  | error sig => cases h; exact .inr ⟨sig, rfl, rfl⟩

/-- SEQ has a step exactly in the states of R80. -/
theorem stopReason_none_iff {s : State} :
    s.stopReason = none ↔ s.halted = false ∧ s.fault = none ∧ s.ip < s.streamLength := by
  unfold State.stopReason
  cases s.halted <;> cases s.fault <;> simp

theorem terminal_false_iff {s : State} :
    s.terminal = false ↔ s.halted = false ∧ s.fault = none ∧ s.ip < s.streamLength := by
  rw [← stopReason_none_iff, State.terminal, Option.isSome_eq_false_iff, Option.isNone_iff_eq_none]

/-! ## Meanings -/

theorem map_ok {α β : Type} {f : α → β} {r : Except Signal α} {u : β} (h : r.map f = .ok u) :
    ∃ v, r = .ok v ∧ u = f v := by
  cases r with
  | ok v => cases h; exact ⟨v, rfl, rfl⟩
  | error e => cases h

theorem map_error {α β : Type} {f : α → β} {r : Except Signal α} {e : Signal} (h : r.map f = .error e) :
    r = .error e := by
  cases r with
  | ok v => cases h
  | error e' => cases h; rfl

/-- What an instruction can do (R98 to R101): its own effect and the advance, or a memory fault at its data address. -/
theorem exec_next {i : Instr} {s t : State} (h : exec i s = .next t) :
    (∃ x, i = .loadc x ∧ t = (s.setAcc x).advance 4) ∨
    (∃ x, i = .sgn x ∧ inRange (directAddress x) = true ∧ t = (s.setAcc (sign (readCell s.mem x))).advance 3) ∨
    (∃ x, i = .load x ∧ inRange (accAddress s.acc x) = true ∧
      t = (s.setAcc (readCell s.mem (accAddress s.acc x).toNat)).advance 1) ∨
    (∃ x, i = .store x ∧ inRange (directAddress x) = true ∧ t = (s.setMem (writeCell s.mem x s.acc)).advance 3) ∨
    (∃ a, dataAddress s.acc i = some a ∧ inRange a = false ∧ t = { s with fault := some a }) := by
  cases i with
  | loadc x =>
    cases h
    exact .inl ⟨x, rfl, rfl⟩
  | sgn x =>
    rw [exec, execSgn] at h
    obtain ⟨u, hu, rfl⟩ | ⟨sig, hsig, rfl⟩ := complete_next h
    · obtain ⟨v, hv, rfl⟩ := map_ok hu
      obtain ⟨ha, rfl⟩ := memRead_ok hv
      exact .inr (.inl ⟨x, rfl, ha, rfl⟩)
    · obtain ⟨ha, rfl⟩ := memRead_error (map_error hsig)
      exact .inr (.inr (.inr (.inr ⟨_, rfl, ha, rfl⟩)))
  | load x =>
    rw [exec, execLoad] at h
    obtain ⟨u, hu, rfl⟩ | ⟨sig, hsig, rfl⟩ := complete_next h
    · obtain ⟨v, hv, rfl⟩ := map_ok hu
      obtain ⟨ha, rfl⟩ := memRead_ok hv
      exact .inr (.inr (.inl ⟨x, rfl, ha, rfl⟩))
    · obtain ⟨ha, rfl⟩ := memRead_error (map_error hsig)
      exact .inr (.inr (.inr (.inr ⟨_, rfl, ha, rfl⟩)))
  | store x =>
    rw [exec, execStore] at h
    obtain ⟨u, hu, rfl⟩ | ⟨sig, hsig, rfl⟩ := complete_next h
    · obtain ⟨m, hm, rfl⟩ := map_ok hu
      obtain ⟨ha, rfl⟩ := memWrite_ok hm
      exact .inr (.inr (.inr (.inl ⟨x, rfl, ha, rfl⟩)))
    · obtain ⟨ha, rfl⟩ := memWrite_error (map_error hsig)
      exact .inr (.inr (.inr (.inr ⟨_, rfl, ha, rfl⟩)))

/-! ## Steps -/

/-- What a step that has a next state can do (R81): a silent halt, or the execution of the decoded instruction. -/
theorem step_next {s t : State} (h : step s = .next t) :
    s.stopReason = none ∧
    ((∃ sig, s.fetch = .error sig ∧ t = { s with halted := true }) ∨
     (∃ i n, s.fetch = .ok (i, n) ∧ exec i s = .next t)) := by
  unfold step at h
  split at h
  · cases h
  · next hs =>
    refine ⟨hs, ?_⟩
    split at h
    · next sig hf =>
      cases h
      refine .inl ⟨sig, hf, ?_⟩
      obtain rfl | ⟨c, rfl, -⟩ := decode_error hf <;> rfl
    · next i n hf => exact .inr ⟨i, n, hf, h⟩

/-- A terminal state's step names the reason. -/
theorem step_of_stopReason {s : State} {r : Fault} (h : s.stopReason = some r) : step s = .fault r := by
  simp [step, h]

end Sys2Proof.Machine
end

