-- ==== Sys2Proof/Laws/Run.lean ====
section
/-!
SUPPORT. What a run's first step does, what a launch answers, and where placed octets are found.
-/

namespace Sys2Proof.Machine

theorem run_of_next {s t : State} (h : step s = .next t) (k : Nat) : run (k + 1) s = run k t := by
  simp [run, h]

theorem run_of_fault {s : State} {r : Fault} (h : step s = .fault r) (k : Nat) : run (k + 1) s = s := by
  simp [run, h]

/-- Everything a successful launch says (R118). -/
theorem launch_ok {S : Octets} {P : List (Int × Int)} {s : State} (h : launch S P = .ok s) :
    (∀ c ∈ P, inRange c.1 = true) ∧
      s = { mem := preseeded P, acc := 0, ip := 0, halted := false, fault := none, stream := S } := by
  unfold launch at h
  split at h <;> cases h
  rename_i hP
  exact ⟨by simpa using hP, rfl⟩

theorem launch_error {S : Octets} {P : List (Int × Int)} {e : HostRefusal} (h : launch S P = .error e) :
    e = .launchPreseed ∧ ∃ c ∈ P, inRange c.1 = false := by
  unfold launch at h
  split at h <;> cases h
  rename_i hP
  exact ⟨rfl, by simpa using hP⟩

/-- Octets placed at an offset stand there, followed by what stood after them. -/
theorem drop_placeOctets (S : Octets) (off : Nat) (octets : Octets) :
    (placeOctets S off octets).drop off = octets ++ S.drop (off + octets.length) := by
  have hlen : (S.take off ++ List.replicate (off - S.length) 0#8).length = off := by
    simp only [List.length_append, List.length_take, List.length_replicate]
    omega
  unfold placeOctets
  rw [List.append_assoc (S.take off ++ _), List.drop_append_of_le_length (by omega), List.drop_of_length_le (by omega),
    List.nil_append]

end Sys2Proof.Machine
end

