-- ==== Sys2Proof/Tests/Slice0.lean ====
section
/-!
SUPPORT. Tests: words and effects from the spec's encoding tables and test vectors (95_test_vectors.md, by table), the refusals of
`Instr.wellFormed`, and, for each statement of `Certificates/Slice0/Obligations.lean` that has hypotheses, a theorem
`witness_<Name>` that meets them all, at boundary values where a clause has a range.
-/

namespace Sys2Proof.Tests

open Sys2Proof.Machine

/-- The next state of an outcome, if there is one. -/
def nextState : Host.Outcome State Fault Refusal → Option State
  | .next s => some s
  | .fault _ => none
  | .refused _ => none

/-- A state at offset 0 of a stream, with the reference pre-seed. -/
def start (acc : Int) (stream : Octets) : State := { State.reset with acc := acc, stream := stream }

/-! ## Well-formedness: each operand range, with the first value outside it -/

theorem test_loadc_operand_range : (Instr.loadc 536870911).wellFormed = true ∧ (Instr.loadc 536870912).wellFormed = false := by
  decide
theorem test_sgn_operand_range : (Instr.sgn 2097151).wellFormed = true ∧ (Instr.sgn 2097152).wellFormed = false := by decide
theorem test_load_operand_range : (Instr.load 31).wellFormed = true ∧ (Instr.load 32).wellFormed = false := by decide
theorem test_store_operand_range : (Instr.store 2097151).wellFormed = true ∧ (Instr.store 2097152).wellFormed = false := by
  decide

/-! ## Decoding words written out from R54: operand bits, then the code -/

theorem test_decode_loadc : decode [0b00101_001, 0b00000000, 0b00000000, 0b00000000] 0 = .ok (.loadc 5, 4) := by decide
theorem test_decode_loadc_top_bits : decode [0b00000_001, 0b00000000, 0b00000000, 0b11111100] 0 = .ok (.loadc 528482304, 4) := by
  decide
theorem test_decode_sgn : decode [0b11111_011, 0b00011111, 0b00000000] 0 = .ok (.sgn 1023, 3) := by decide
theorem test_decode_load : decode [0b11111_100] 0 = .ok (.load 31, 1) := by decide
theorem test_decode_store : decode [0b11111_101, 0b11111111, 0b11111111] 0 = .ok (.store 2097151, 3) := by decide

/-- Table 2.2: the signals, an unrecognised code before the length test, and an offset past the end. -/
theorem test_decode_signals :
    decode [0xF8, 0x01, 0x02, 0x03] 0 = .error (.unrecognizedOpcode 0) ∧ decode [0x07] 0 = .error (.unrecognizedOpcode 7) ∧
    decode [0x01, 0x00, 0x00] 0 = .error .truncatedInstruction ∧ decode [0x04] 1 = .error .truncatedInstruction := by decide

/-- The opcode table's rows: operand bits above the code. -/
theorem test_decodeTableWord :
    decodeTableWord 32 0xF9FFFFF9 = some (.loadc 524287999) ∧ decodeTableWord 24 0x001FFB = some (.sgn 1023) ∧
    decodeTableWord 8 0x0C = some (.load 1) ∧ decodeTableWord 24 0x00002D = some (.store 5) ∧
    decodeTableWord 8 0x02 = none := by decide

/-! ## Encoding: table 2.1 -/

theorem test_encode : encode (.loadc 8388608) = [0x01, 0x00, 0x00, 0x04] ∧ encode (.sgn 1024) = [0x03, 0x20, 0x00] ∧
    encode (.load 31) = [0xFC] ∧ encode (.store 5) = [0x2D, 0x00, 0x00] := by decide
theorem test_encode_drops_high_bits : encodeMnemonic Opcode.loadc.mnemonic 536870919 = .ok [0x39, 0x00, 0x00, 0x00] ∧
    encodeMnemonic Opcode.load.mnemonic 33 = .ok [0x0C] := by decide
theorem test_encode_refusals : encodeMnemonic "LOADC".toList (-1) = .error .negativeOperand ∧
    encodeMnemonic "HALT".toList (-1) = .error .unknownMnemonicError ∧
    encodeMnemonic "loadc".toList 5 = .error .unknownMnemonicError := by decide

/-! ## One step: table 2.4, each placed by `withFetchWord` -/

theorem test_step_loadc : nextState (step (State.reset.withFetchWord 32 0xFFFFFFF9)) =
    some { State.reset with acc := 536870911, ip := 4, stream := [0xF9, 0xFF, 0xFF, 0xFF] } := by decide
theorem test_step_sgn : (nextState (step (State.reset.withFetchWord 24 0x00001B))).map (fun s => (s.acc, s.ip)) = some (-1, 3) := by
  decide
theorem test_step_load_negative_base :
    (nextState (step (start (-1) [0x0C]))).map (fun s => (s.acc, s.ip, s.fault)) = some (-5, 1, none) := by decide
theorem test_step_load_below_zero :
    (nextState (step (start (-1) [0x04]))).map (fun s => (s.acc, s.ip, s.fault)) = some (-1, 0, some (-1)) := by decide
theorem test_step_store : (nextState (step (start (-1) [0x05, 0x00, 0x00]))).map (fun s => (s.mem, s.ip)) =
    some ([(0, -1), (2, 10), (3, -1)], 3) := by decide
theorem test_step_store_out_of_range : nextState (step (start 9 [0x85, 0x3E, 0x00])) =
    some { start 9 [0x85, 0x3E, 0x00] with fault := some 2000 } := by decide
theorem test_step_silent_halt : nextState (step (start 7 [0x02, 0x05])) = some { start 7 [0x02, 0x05] with halted := true } := by
  decide
theorem test_reset_has_no_step : nextState (step State.reset) = none := by decide

/-- The memory of R34, written out. -/
theorem test_reset_memory : State.reset.mem = [(0, -5), (2, 10), (3, -1)] := by decide

/-- Storing 0 to a listed cell removes it, so equal memories stay equal data. -/
theorem test_write_zero_removes : writeCell State.reset.mem 2 0 = [(0, -5), (3, -1)] := by decide

/-! ## Host and assembler: tables 2.6 and 2.7 -/

theorem test_dump : dumpCells (writeCell State.reset.mem 5 10) 0 5 = .ok [(0, -5), (1, 0), (2, 10), (3, -1), (4, 0), (5, 10)] ∧
    dumpCells [] 5 4 = .ok [] ∧ dumpCells [] 1020 1024 = .error .dumpRange := by decide
theorem test_launch_refused : launch [] [(1024, 1)] = .error .launchPreseed := by decide
theorem test_assemble_line : assembleLine "   loadc   5   ; set five".toList = .ok (some (.loadc, 5)) ∧
    assembleLine "STORE +5".toList = .ok (some (.store, 5)) ∧ assembleLine "LOADC -1".toList = .ok (some (.loadc, -1)) := by decide
theorem test_assemble_nothing : assembleLine [] = .ok none ∧ assembleLine "; comment only".toList = .ok none := by decide
theorem test_assemble_errors : assembleLine "LOADC".toList = .error .parseError ∧
    assembleLine "LOADC 5 6".toList = .error .parseError ∧ assembleLine "LOADC 0x10".toList = .error .parseError ∧
    assembleLine "HALT x".toList = .error .unknownMnemonicError := by decide
theorem test_assemble_program : assembleProgram ["store 5".toList, [], "LOAD 32".toList] =
    .ok ([0x2D, 0x00, 0x00, 0x04],
      [⟨"STORE".toList, 5, "0x2D 0x00 0x00".toList⟩, ⟨"LOAD".toList, 32, "0x04".toList⟩]) := by decide
theorem test_assemble_program_aborts : assembleProgram ["LOAD 1".toList, "LOADC -1".toList] = .error .negativeOperand := by decide

/-! ## Witnesses -/

theorem witness_DecoderFollowsOpcodeMap : (0xF8#8 : Octet).toNat % 8 = 0 ∧ (0xF9#8 : Octet).toNat % 8 = 1 ∧
    (0x02#8 : Octet).toNat % 8 = 2 ∧ (0xFB#8 : Octet).toNat % 8 = 3 ∧ (0xFC#8 : Octet).toNat % 8 = 4 ∧
    (0xFD#8 : Octet).toNat % 8 = 5 ∧ (0x06#8 : Octet).toNat % 8 = 6 ∧ (0xFF#8 : Octet).toNat % 8 = 7 := by decide

theorem witness_DecoderReportsShortStreams : ([0x04#8] : Octets).length ≤ 1 ∧
    ([0x01#8, 0x00#8, 0x00#8] : Octets)[0]? = some 0x01#8 ∧ Opcode.ofCode (opcodeField 0x01#8) = some .loadc ∧
    ([0x01#8, 0x00#8, 0x00#8] : Octets).length < 0 + Opcode.loadc.length := by decide

theorem witness_LowThreeBitsSelectTheInstruction : ([0x04#8] : Octets)[0]? = some 0x04#8 ∧
    ([0x00#8, 0xFC#8] : Octets)[1]? = some 0xFC#8 ∧ (0x04#8 : Octet).toNat % 8 = (0xFC#8 : Octet).toNat % 8 ∧
    decode [0x04] 0 = .ok (.load 0, 1) ∧ decode [0x00, 0xFC] 1 = .ok (.load 31, 1) := by decide

theorem witness_DecodedOperandIsTheShiftedWord : decode [0xF9, 0xFF, 0xFF, 0xFF] 0 = .ok (.loadc 536870911, 4) := by decide

theorem witness_DecoderReadsOnlyTheInstruction : decode [0x0C, 0xFD, 0x1F, 0x00] 1 = .ok (.store 1023, 3) ∧
    (([0x00, 0xFD, 0x1F, 0x00, 0x07] : Octets).drop 1).take 3 = (([0x0C, 0xFD, 0x1F, 0x00] : Octets).drop 1).take 3 := by decide

theorem witness_EncodeThenDecodeGivesTheInstruction : (Instr.loadc 536870911).wellFormed = true ∧
    (Instr.sgn 2097151).wellFormed = true ∧ (Instr.load 31).wellFormed = true ∧ (Instr.store 0).wellFormed = true := by decide

theorem witness_DecodeThenEncodeGivesTheOctets : decode [0xFB, 0xFF, 0xFF] 0 = .ok (.sgn 2097151, 3) ∧
    ([0xFB, 0xFF, 0xFF] : Octets).length = 3 := by decide

theorem witness_EncoderRefusals : (-1 : Int) < 0 ∧ "HALT".toList ≠ Opcode.loadc.mnemonic ∧ "HALT".toList ≠ Opcode.sgn.mnemonic ∧
    "HALT".toList ≠ Opcode.load.mnemonic ∧ "HALT".toList ≠ Opcode.store.mnemonic := by decide

theorem witness_CheckedMemoryAccess : ((0 : Int) ≤ 0 ∧ (0 : Int) ≤ 1023) ∧ ((0 : Int) ≤ 1023 ∧ (1023 : Int) ≤ 1023) ∧
    (-1 : Int) < 0 ∧ (1023 : Int) < 1024 := by decide

theorem witness_CanonicalMemoriesThatReadAlikeAreEqual : Memory.wf [(0, -5), (1023, 7)] ∧
    ∀ a, readCell [(0, -5), (1023, 7)] a = readCell (writeCell [(0, -5)] 1023 7) a :=
  ⟨by decide, fun _ => rfl⟩

theorem witness_CellReadsItsLastStore :
    ((start 9 [0xFD, 0x1F, 0x00]).terminal = false ∧ (start 9 [0xFD, 0x1F, 0x00]).fetch = .ok (.store 1023, 3)) ∧
    (run 0 (start 9 [0xFD, 0x1F, 0x00])).stores 1023 ∧ ¬ (run 0 (start 9 [0x04])).stores 1023 :=
  ⟨by decide, ⟨by decide, by decide⟩, fun h => absurd h.2 (by decide)⟩

theorem witness_SignOfAnInteger : (-1 : Int) < 0 ∧ (0 : Int) = 0 ∧ (0 : Int) < 1 ∧ (1 : Int) ≠ 0 := by decide
theorem witness_LoadcLoadsItsOperand : 536870911 ≤ 2 ^ 29 - 1 := by decide
theorem witness_SgnLoadsTheSignOfTheCell : 1023 ≤ 1023 := by decide
theorem witness_LoadReadsTheCellAtAccPlusOffset : 0 ≤ (start (-1) []).acc + (1 : Nat) ∧ (start (-1) []).acc + (1 : Nat) ≤ 1023 ∧
    0 ≤ (start 992 []).acc + (31 : Nat) ∧ (start 992 []).acc + (31 : Nat) ≤ 1023 := by decide
theorem witness_StoreWritesTheAccumulator : 1023 ≤ 1023 := by decide
theorem witness_OutOfRangeAccessWritesOnlyFault : 1023 < 1024 ∧ (start (-1) []).acc + (0 : Nat) < 0 ∧
    1023 < (start 993 []).acc + (31 : Nat) := by decide

theorem witness_MemoryFaultExactlyOutOfRange : (start 0 []).fault = none ∧
    (nextState (exec (.loadc 5) (start 0 []))).isSome ∧ (nextState (exec (.sgn 1024) (start 0 []))).isSome ∧
    (nextState (exec (.load 31) (start 993 []))).isSome ∧ (nextState (exec (.store 1023) (start 0 []))).isSome := by decide

theorem witness_InstructionAdvancesIpAfterItsEffect : dataAddress 0 (.loadc 5) = none ∧ dataAddress 0 (.sgn 1023) = some 1023 ∧
    dataAddress (-1) (.load 1) = some 0 ∧ dataAddress 0 (.store 0) = some 0 := by decide

theorem witness_LoadingInstructionsFrame : (∀ x, Instr.sgn 1023 ≠ .store x) ∧ (∀ x, Instr.load 31 ≠ .store x) ∧
    (nextState (exec (.sgn 1023) (start 0 []))).isSome ∧ (nextState (exec (.load 31) (start 993 []))).isSome :=
  ⟨by simp, by simp, by decide, by decide⟩

theorem witness_StoreFrame : nextState (exec (.store 1023) (start 9 [])) =
    some { start 9 [] with mem := [(0, -5), (2, 10), (3, -1), (1023, 9)], ip := 3 } ∧ directAddress 1023 = 1023 ∧
    ((1022 : Nat) : Int) ≠ 1023 := by decide

theorem witness_ReadAfterStoreSeesTheStoredValue : (1023 ≤ 1023) ∧ (start 1000 []).acc + (23 : Nat) = (1023 : Nat) := by decide

theorem witness_StepRunsTheDecodedInstruction : (start 0 [0x04]).halted = false ∧ (start 0 [0x04]).fault = none ∧
    (start 0 [0x04]).fetch = .ok (.load 0, 1) ∧ (Instr.load 0).wellFormed = true := by decide

theorem witness_StepIsEnabledExactly : (nextState (step (start 0 [0x04]))).isSome ∧ (start 0 [0x04]).halted = false ∧
    (start 0 [0x04]).fault = none ∧ (start 0 [0x04]).ip < (start 0 [0x04]).streamLength := by decide

theorem witness_TerminalStepNamesTheReason : (start 0 []).halted = false ∧ (start 0 []).fault = none ∧
    (start 0 []).streamLength ≤ (start 0 []).ip := by decide

theorem witness_SilentHaltSetsOnlyHalted : (start 7 [0x03, 0x00]).halted = false ∧ (start 7 [0x03, 0x00]).fault = none ∧
    (start 7 [0x03, 0x00]).ip < (start 7 [0x03, 0x00]).streamLength ∧
    (start 7 [0x03, 0x00]).fetch = .error .truncatedInstruction ∧
    (start 7 [0x02]).fetch = .error (.unrecognizedOpcode 2) := by decide

theorem witness_FaultEntryIsPreciseAndFatal :
    nextState (step (start (-1) [0x04])) = some { start (-1) [0x04] with fault := some (-1) } ∧
    ({ start (-1) [0x04] with fault := some (-1) } : State).fault ≠ (start (-1) [0x04]).fault := by decide

theorem witness_IpOnlyAdvances : (nextState (step (start 0 [0x29, 0x00, 0x00, 0x00]))).map State.ip = some 4 := by decide

theorem witness_StepWritesOnlyByTheInstructionsNamed :
    (nextState (step (start 9 [0x2D, 0x00, 0x00]))).map (fun t => readCell t.mem 5) = some 9 ∧
    readCell (start 9 [0x2D, 0x00, 0x00]).mem 5 ≠ 9 ∧
    (nextState (step (start 9 [0x04]))).map State.acc = some 0 := by decide

theorem witness_StepIgnoresOtherOctets : (start 0 [0x04, 0x02]).halted = false ∧ (start 0 [0x04, 0x02]).fault = none ∧
    (start 0 [0x04, 0x02]).fetch = .ok (.load 0, 1) ∧
    (([0x04, 0x07, 0x07] : Octets).drop 0).take 1 = ((start 0 [0x04, 0x02]).stream.drop 0).take 1 := by decide

theorem witness_LaunchSatisfiesTheInvariant : launch [0x04] Config.preseed = .ok (start 0 [0x04]) := by decide

theorem witness_EveryStepKeepsTheInvariant : Invariant (start 9 [0xFD, 0x1F, 0x00]) ∧
    (nextState (step (start 9 [0xFD, 0x1F, 0x00]))).isSome :=
  ⟨⟨by decide, by decide, fun h => absurd h (by decide), fun a h => absurd h (by simp [start, State.reset])⟩, by decide⟩

theorem witness_StepMakesNoOtherValues : (∀ x : Nat, x ≤ 2 ^ 29 - 1 → -1 ≤ (x : Int)) ∧ (-1 : Int) ≤ -1 ∧
    Holds (fun v => -1 ≤ v) { start (-1) [0x29, 0x00, 0x00, 0x00] with mem := [] } ∧
    (nextState (step { start (-1) [0x29, 0x00, 0x00, 0x00] with mem := [] })).isSome :=
  ⟨fun x _ => by omega, by decide, ⟨by decide, fun _ => by simp [readCell, unlistedCell]⟩, by decide⟩

theorem witness_HaltedOnlyByADecodeSignal : launch [0x02] [] = .ok { start 0 [0x02] with mem := [] } ∧
    nextState (step (start 0 [0x02])) = some { start 0 [0x02] with halted := true } ∧
    ({ start 0 [0x02] with halted := true } : State).halted = true ∧
    (start 0 []).halted = false ∧ (start 0 []).streamLength ≤ (start 0 []).ip := by decide

theorem witness_TerminalStatesAreAbsorbing : (start 0 []).terminal = true ∧
    ({ start 0 [0x04] with halted := true } : State).terminal = true ∧
    ({ start 0 [0x04] with fault := some (-1) } : State).terminal = true := by decide

theorem witness_EveryRunEndsWithinStreamLengthSteps : (start 0 [0x04]).streamLength ≤ 1 := by decide
theorem witness_RunsEndInThreeWays : launch [0x04] [(1023, 4)] = .ok { start 0 [0x04] with mem := [(1023, 4)] } ∧
    launch [] [] = .ok { start 0 [] with mem := [] } := by decide
theorem witness_OffsetsRiseAlongARun : 0 < 1 ∧ (run 1 (start 3 [0x04, 0x04])).terminal = false := by decide

theorem witness_RunExecutesTheEncodedInstructions : (∀ i ∈ [Instr.load 0, Instr.store 5], i.wellFormed = true) ∧
    ({ start 3 [0x07, 0x04, 0x2D, 0x00, 0x00, 0x02] with ip := 1 } : State).stream =
      [0x07] ++ encodeAll [Instr.load 0, Instr.store 5] ++ [0x02] ∧
    ({ start 3 [0x07, 0x04, 0x2D, 0x00, 0x00, 0x02] with ip := 1 } : State).ip = ([0x07] : Octets).length ∧
    (start 3 []).halted = false ∧ (start 3 []).fault = none := by decide

theorem witness_FiniteRealisationIsExact : 30 ≤ 30 ∧ ([0x04, 0x04, 0x04] : Octets).length ≤ 2 ^ 2 - 1 ∧
    (∀ c ∈ [((0 : Int), (-536870912 : Int)), (1, 536870911)], fitsCell 30 c.2 = true) ∧
    launch [0x04, 0x04, 0x04] [(0, -536870912), (1, 536870911)] =
      .ok { start 0 [0x04, 0x04, 0x04] with mem := [(0, -536870912), (1, 536870911)] } := by decide

theorem witness_InitialRegisters : launch [0x04] [(0, -1)] = .ok { start 0 [0x04] with mem := [(0, -1)] } := by decide

theorem witness_ResetLeavesNothingUnspecified : launch [] [(0, 0), (1023, 4)] = .ok { start 0 [] with mem := [(1023, 4)] } ∧
    (∀ c ∈ [((0 : Int), (0 : Int)), (1023, 4)], c.1 ≠ 1022) ∧ (∃ c ∈ [((0 : Int), (0 : Int)), (1023, 4)], c.1 = 0) := by decide

theorem witness_LaunchAppliesThePreseed : (∃ c ∈ [((-1 : Int), (1 : Int))], c.1 < 0 ∨ 1023 < c.1) ∧
    (∃ c ∈ [((1024 : Int), (1 : Int))], c.1 < 0 ∨ 1023 < c.1) ∧
    (∀ c ∈ [((0 : Int), (1 : Int)), (1023, 2)], 0 ≤ c.1 ∧ c.1 ≤ 1023) ∧
    ([((0 : Int), (1 : Int)), (1023, 2)].map Prod.fst).Nodup := by decide

theorem witness_ResetHasTheReferencePreseed : 4 ≤ 4 := by decide
theorem witness_DumpListsTheRange : (5 : Int) > 4 ∧ ((1023 : Int) ≤ 1024 ∧ (1023 : Int) < 1024) ∧ ((-1 : Int) ≤ 0 ∧ (-1 : Int) < 0) ∧
    ((0 : Int) ≤ 0 ∧ (0 : Int) ≤ 1023 ∧ (1023 : Int) ≤ 1023) := by decide

theorem witness_HostReceivesDumpOrFaultReport : ({ start 0 [0x04] with fault := some (-1) } : State).fault = some (-1) ∧
    (start 0 []).endedByExhaustion ∧ ({ start 0 [0x02] with halted := true } : State).endedBySilentHalt :=
  ⟨rfl, ⟨rfl, rfl, rfl⟩, ⟨rfl, rfl, by decide⟩⟩

theorem witness_BlankAndCommentLinesGiveNothing : ∀ c ∈ [' ', '\t', '\n', '\x0b', '\x0c', '\r'], isWhitespace c = true :=
  List.all_eq_true.mp (by decide)

/-- Pieces for each clause: none, one, three, an unknown mnemonic with an operand that is no integer, and a known mnemonic with an
operand that is none or is one. -/
theorem witness_InstructionLinesAssemble :
    (∀ c ∈ [' ', '\r'], c ∈ [' ', '\t', '\n', '\x0b', '\x0c', '\r']) ∧ (∃ comment : Text, [';', ';'] = ';' :: comment) ∧
    (∀ pieces ∈ ([[], [("LOADC".toList, [])], [("LOADC".toList, [' ']), (['5'], ['\t']), (['6'], [])],
        [("HALT".toList, ['\x0b', '\x0c']), (['x'], [])], [("LoadC".toList, [' ']), ("0x10".toList, ['\n'])],
        [("sToRe".toList, [' ']), ("-007".toList, [])]] : List (List (Text × Text))),
      (∀ p ∈ pieces, p.1 ≠ [] ∧ (∀ c ∈ p.1, c ∉ [' ', '\t', '\n', '\x0b', '\x0c', '\r'] ∧ c ≠ ';') ∧
        ∀ c ∈ p.2, c ∈ [' ', '\t', '\n', '\x0b', '\x0c', '\r']) ∧
      ∀ p ∈ pieces.dropLast, p.2 ≠ []) ∧
    (∀ op : Opcode, "HALT".toList.map Char.toUpper ≠ op.mnemonic) ∧
    "LoadC".toList.map Char.toUpper = Opcode.loadc.mnemonic ∧ parseInteger "0x10".toList = none ∧
    "sToRe".toList.map Char.toUpper = Opcode.store.mnemonic ∧ parseInteger "-007".toList = some (-7) :=
  ⟨by simp, ⟨_, rfl⟩, by simp only [List.forall_mem_cons, List.dropLast]; simp, by intro op; cases op <;> decide, by decide, by decide, by decide, by decide⟩

/-- A token with leading zeros meets the right side, and one in hexadecimal meets neither side. -/
theorem witness_IntegerTokensAreDecimal : parseInteger "007".toList = some 7 ∧ parseInteger "+0".toList = some 0 ∧
    "007".toList = [] ++ ['0', '0', '7'] ∧ (7 : Nat) = ['0', '0', '7'].foldl (fun value c => 10 * value + (c.toNat - '0'.toNat)) 0 ∧
    parseInteger "0x10".toList = none ∧ parseInteger "-".toList = none ∧ parseInteger [] = none := by decide

/-- One line for each clause: a blank one, an instruction, one that fails by itself, and one that fails in the encoder. -/
theorem witness_ProgramsAssembleInOrderOrNotAtAll : assembleLine " ; nothing".toList = .ok none ∧
    assembleLine "load 33".toList = .ok (some (.load, 33)) ∧ encodeMnemonic Opcode.load.mnemonic 33 = .ok [0x0C] ∧
    assembleProgram ["load 33".toList] = .ok ([0x0C], [⟨"LOAD".toList, 33, "0x0C".toList⟩]) ∧
    assembleProgram [[]] = .ok ([], []) ∧ assembleLine "LOADC five".toList = .error .parseError ∧
    assembleLine "LOADC -1".toList = .ok (some (.loadc, -1)) ∧
    encodeMnemonic Opcode.loadc.mnemonic (-1) = .error .negativeOperand := by decide

/-- The rendering at its boundaries: digits 9 and A, F and 0, in stream order. -/
theorem witness_TraceRecordsTheStream :
    assembleProgram ["LOAD 1".toList] = .ok ([0x0C], [⟨"LOAD".toList, 1, "0x0C".toList⟩]) ∧
    machineCode [0x9A, 0xF0, 0x00] = "0x9A 0xF0 0x00".toList ∧ machineCode [] = [] ∧
    (∃ digit : Nat → Char, ∀ d, digit d = "0123456789ABCDEF".toList.getD d '0') :=
  ⟨by decide, by decide, rfl, _, fun _ => rfl⟩

theorem witness_AssembledProgramsNeverHaltSilently :
    assembleProgram ["LOAD 1".toList] = .ok ([0x0C], [⟨"LOAD".toList, 1, "0x0C".toList⟩]) ∧
    launch [0x0C] Config.preseed = .ok (start 0 [0x0C]) := by decide

/-- The run of `LOAD 1` from reset ends after one step, so its only access is to cell 1. -/
theorem witness_AssembledProgramsWithGoodAddressesEndByExhaustion :
    assembleProgram ["LOAD 1".toList] = .ok ([0x0C], [⟨"LOAD".toList, 1, "0x0C".toList⟩]) ∧
    launch [0x0C] Config.preseed = .ok (start 0 [0x0C]) ∧ ∀ k, (run k (start 0 [0x0C])).accessInRange := by
  refine ⟨by decide, by decide, fun k => ?_⟩
  have hend : ∀ k, (run (k + 1) (start 0 [0x0C])).terminal = true := by
    intro k
    cases k <;> rfl
  cases k with
  | zero =>
    intro _ i n h a ha
    have hfetch : (run 0 (start 0 [0x0C])).fetch = .ok (.load 1, 1) := rfl
    cases hfetch.symm.trans h
    cases ha
    rfl
  | succ k =>
    intro h
    rw [hend k] at h
    cases h

end Sys2Proof.Tests
end

/-!
The state at the start of a run (R23, R28), what writes `halted` (R28, R84), and runs from terminal states (R88, R89).
-/

namespace Sys2Proof.Machine

/-! ## The start of a run -/

/-- The registers of a launched state (R23), without the memory and the stream that `launch_ok` also gives. -/
theorem launch_registers {S : Octets} {P : List (Int × Int)} {s : State} (h : launch S P = .ok s) :
    s.acc = 0 ∧ s.ip = 0 ∧ s.halted = false := by
  obtain ⟨-, rfl⟩ := launch_ok h
  exact ⟨rfl, rfl, rfl⟩

/-! ## Terminal states -/

theorem terminal_of_halted {s : State} (h : s.halted = true) : s.terminal = true := by
  by_contra hs
  obtain ⟨hrunning, -, -⟩ := terminal_false_iff.mp (Bool.eq_false_of_not_eq_true hs)
  simp [h] at hrunning

theorem terminal_of_streamLength_le_ip {s : State} (h : s.streamLength ≤ s.ip) : s.terminal = true := by
  by_contra hs
  obtain ⟨-, -, hip⟩ := terminal_false_iff.mp (Bool.eq_false_of_not_eq_true hs)
  omega

/-- A terminal state is absorbing (R89): every run from it is the state itself. -/
theorem run_of_terminal {s : State} (h : s.terminal = true) (k : Nat) : run k s = s := by
  obtain ⟨r, hr⟩ := Option.isSome_iff_exists.mp h
  cases k with
  | zero => rfl
  | succ k => exact run_of_fault (step_of_stopReason hr) k

/-! ## What writes `halted` -/

/-- No instruction writes `halted`, not even one that faults. -/
theorem exec_halted {i : Instr} {s t : State} (h : exec i s = .next t) : t.halted = s.halted := by
  obtain ⟨x, -, rfl⟩ | ⟨x, -, -, rfl⟩ | ⟨x, -, -, rfl⟩ | ⟨x, -, -, rfl⟩ | ⟨a, -, -, rfl⟩ := exec_next h
  case inl => simp -- `LOADC`
  case inr.inl => simp -- `SGN`
  case inr.inr.inl => simp -- `LOAD`
  case inr.inr.inr.inl => simp -- `STORE`
  case inr.inr.inr.inr => rfl -- a memory fault

/-- A step that leaves `halted` set took a decode signal. -/
theorem fetch_error_of_step_halted {s t : State} (h : step s = .next t) (ht : t.halted = true) :
    ∃ sig, s.fetch = .error sig := by
  obtain ⟨hs, ⟨sig, hf, -⟩ | ⟨i, n, -, hexec⟩⟩ := step_next h
  · exact ⟨sig, hf⟩
  · obtain ⟨hrunning, -, -⟩ := stopReason_none_iff.mp hs
    simp [exec_halted hexec, hrunning] at ht

/-! ## The obligations -/

/-- Settles O47. -/
theorem initialRegisters : Obligations.InitialRegisters :=
  ⟨rfl, rfl, rfl, fun _ _ _ => launch_registers⟩

/-- Settles O40: a step begins unhalted and only its decode signal sets `halted`; the runs of the last two clauses begin in a
terminal state. -/
theorem haltedOnlyByADecodeSignal : Obligations.HaltedOnlyByADecodeSignal := by
  refine ⟨fun S P s h => ?atLaunch, fun s t h => ⟨?enabled, fun ht => ?signalled⟩, fun s k h => ?kept,
    fun s k h hip => ?exhausted⟩
  case atLaunch =>
    obtain ⟨-, -, hhalted⟩ := launch_registers h
    exact hhalted
  case enabled =>
    obtain ⟨hs, -⟩ := step_next h
    obtain ⟨hrunning, -, -⟩ := stopReason_none_iff.mp hs
    exact hrunning
  case signalled =>
    obtain ⟨sig, hf⟩ := fetch_error_of_step_halted h ht
    obtain rfl | ⟨c, rfl, -⟩ := decode_error hf
    · exact .inl hf
    · exact .inr ⟨c, hf⟩
  case kept => rwa [run_of_terminal (terminal_of_halted h)]
  case exhausted => rwa [run_of_terminal (terminal_of_streamLength_le_ip hip)]

end Sys2Proof.Machine

/-!
The cells along a run (R39): which step writes a cell, how a run is cut at a step, and what a cell reads after the last `STORE` to
it.
-/

namespace Sys2Proof.Machine

/-! ## Steps and runs -/

/-- However the effect ends, the instruction has a next state. -/
theorem complete_isNext (op : Opcode) (s : State) (r : Except Signal State) : ∃ t, complete op s r = .next t := by
  cases r with
  | ok u => exact ⟨_, rfl⟩
  | error sig => exact ⟨_, rfl⟩

/-- Every instruction has a next state, a fault included (R87). -/
theorem exec_isNext (i : Instr) (s : State) : ∃ t, exec i s = .next t := by
  cases i with
  | loadc x => rw [exec, execLoadc]; exact complete_isNext ..
  | sgn x => rw [exec, execSgn]; exact complete_isNext ..
  | load x => rw [exec, execLoad]; exact complete_isNext ..
  | store x => rw [exec, execStore]; exact complete_isNext ..

/-- SEQ has a step in every state that is not terminal (R80). -/
theorem step_isNext {s : State} (h : s.terminal = false) : ∃ t, step s = .next t := by
  have hs : s.stopReason = none := stopReason_none_iff.mpr (terminal_false_iff.mp h)
  simp only [step, hs]
  split
  · exact ⟨_, rfl⟩
  · exact exec_isNext _ s

/-- A run of `j + k` steps is a run of `k` steps from where `j` steps lead. -/
theorem run_add (j k : Nat) (s : State) : run (j + k) s = run k (run j s) := by
  induction j generalizing s with
  | zero => rw [Nat.zero_add, run]
  | succ j ih =>
    cases hs : s.terminal with
    | true => simp only [run_of_terminal hs]
    | false =>
      obtain ⟨t, ht⟩ := step_isNext hs
      rw [Nat.succ_add, run_of_next ht, run_of_next ht, ih]

/-! ## Which step writes a cell -/

theorem readCell_exec_of_ne_store {i : Instr} {s t : State} {a : Nat} (h : exec i s = .next t) (hi : i ≠ .store a) :
    readCell t.mem a = readCell s.mem a := by
  obtain ⟨x, -, rfl⟩ | ⟨x, -, -, rfl⟩ | ⟨x, -, -, rfl⟩ | ⟨x, rfl, -, rfl⟩ | ⟨b, -, -, rfl⟩ := exec_next h
  case inl => simp -- `LOADC`
  case inr.inl => simp -- `SGN`
  case inr.inr.inl => simp -- `LOAD`
  case inr.inr.inr.inl => -- `STORE` to another cell
    have hx : a ≠ x := fun hax => hi (hax ▸ rfl)
    simpa using readCell_writeCell_other s.mem s.acc hx
  case inr.inr.inr.inr => rfl -- a memory fault

theorem exec_store_of_inRange {a : Nat} (s : State) (ha : inRange (directAddress a) = true) :
    exec (.store a) s = .next ((s.setMem (writeCell s.mem a s.acc)).advance 3) := by
  rw [exec, execStore, memWrite, if_pos ha]
  rfl

/-- A step that is not a `STORE` to the cell leaves the cell alone (R39). -/
theorem readCell_step_of_not_stores {s t : State} {a : Nat} (h : step s = .next t) (hn : ¬ s.stores a) :
    readCell t.mem a = readCell s.mem a := by
  obtain ⟨hs, ⟨sig, -, rfl⟩ | ⟨i, n, hf, hexec⟩⟩ := step_next h
  · rfl
  · refine readCell_exec_of_ne_store hexec fun hi => hn ⟨terminal_false_iff.mpr (stopReason_none_iff.mp hs), ?_⟩
    obtain rfl := hi
    obtain rfl : n = 3 := decode_ok_length hf
    exact hf

/-- After a `STORE` to a cell that exists the cell reads the stored accumulator (R101). -/
theorem readCell_run_one_of_stores {s : State} {a : Nat} (ha : a ≤ 1023) (hst : s.stores a) :
    readCell (run 1 s).mem a = s.acc := by
  obtain ⟨hrunning, hf⟩ := hst
  obtain ⟨t, ht⟩ := step_isNext hrunning
  have hrange : inRange (directAddress a) = true := inRange_iff.mpr (by simp only [directAddress]; omega)
  have hexec : exec (.store a) s = .next t := by
    rw [← ht, step, stopReason_none_iff.mpr (terminal_false_iff.mp hrunning), hf]
  rw [exec_store_of_inRange s hrange] at hexec
  cases hexec
  rw [run_of_next ht, run]
  simp

/-! ## Cells along a run -/

/-- A run without a `STORE` to the cell leaves the cell alone. -/
theorem readCell_run_of_not_stores {s : State} {a k : Nat} (hn : ∀ j, j < k → ¬ (run j s).stores a) :
    readCell (run k s).mem a = readCell s.mem a := by
  induction k with
  | zero => rfl
  | succ k ih =>
    have hbefore : readCell (run k s).mem a = readCell s.mem a := ih fun j hj => hn j (by omega)
    rw [run_add k 1, ← hbefore]
    cases hs : (run k s).terminal with
    | true => rw [run_of_terminal hs]
    | false =>
      obtain ⟨t, ht⟩ := step_isNext hs
      rw [run_of_next ht, run]
      exact readCell_step_of_not_stores ht (hn k (by omega))

/-! ## The obligation -/

/-- Settles O16: the run is cut after the last `STORE` to the cell; from there on it holds none. -/
theorem cellReadsItsLastStore : Obligations.CellReadsItsLastStore := by
  refine fun s a k ha => ⟨readCell_run_of_not_stores, fun j hj hst hlast => ?_⟩
  obtain ⟨d, rfl⟩ := Nat.exists_eq_add_of_lt hj
  have hcut : run (j + d + 1) s = run d (run (j + 1) s) := by rw [← run_add, Nat.add_right_comm]
  have hnone : ∀ m, m < d → ¬ (run m (run (j + 1) s)).stores a := by
    intro m hm
    rw [← run_add]
    exact hlast _ (by omega) (by omega)
  calc readCell (run (j + d + 1) s).mem a
      = readCell (run (j + 1) s).mem a := by rw [hcut, readCell_run_of_not_stores hnone]
    _ = (run j s).acc := by rw [run_add j 1, readCell_run_one_of_stores ha hst]

end Sys2Proof.Machine

/-!
The codec on written-out octets: what the decoder answers at an octet (R55, R56), the range of the operand field (R57), and the
first octet of an encoding (R65).
-/

namespace Sys2Proof

/-! ## Words -/

theorem littleEndian_lt (bs : Octets) : littleEndian bs < 256 ^ bs.length := by
  rw [← littleEndianOctets_littleEndian bs, littleEndian_littleEndianOctets, littleEndianOctets_length]
  exact Nat.mod_lt _ (by positivity)

/-- A fetched word of `n` octets has `8n` bits; one cut off by the end of the stream has fewer. -/
theorem fetchWord_lt (S : Octets) (off n : Nat) : fetchWord S off n < 2 ^ (8 * n) :=
  calc fetchWord S off n
      < 256 ^ ((S.drop off).take n).length := littleEndian_lt _
    _ ≤ 256 ^ n := Nat.pow_le_pow_right (by decide) (List.length_take_le ..)
    _ = 2 ^ (8 * n) := by rw [Nat.pow_mul]

theorem fetchWord_append (before word after : Octets) :
    fetchWord (before ++ (word ++ after)) before.length word.length = littleEndian word := by
  rw [fetchWord, List.drop_left, List.take_left]

theorem littleEndian_three (b0 b1 b2 : Octet) :
    littleEndian [b0, b1, b2] = b0.toNat + 2 ^ 8 * b1.toNat + 2 ^ 16 * b2.toNat := by
  simp only [littleEndian]
  omega

theorem littleEndian_four (b0 b1 b2 b3 : Octet) :
    littleEndian [b0, b1, b2, b3] = b0.toNat + 2 ^ 8 * b1.toNat + 2 ^ 16 * b2.toNat + 2 ^ 24 * b3.toNat := by
  simp only [littleEndian]
  omega

/-! ## Decoding -/

theorem decode_of_ofCode_none {S : Octets} {off : Nat} {b0 : Octet} (hb : S[off]? = some b0)
    (hcode : Opcode.ofCode (opcodeField b0) = none) :
    decode S off = .error (.unrecognizedOpcode (opcodeField b0)) := by
  simp only [decode, hb, hcode]

theorem decode_of_ofCode_some {S : Octets} {off : Nat} {b0 : Octet} {op : Opcode} (hb : S[off]? = some b0)
    (hcode : Opcode.ofCode (opcodeField b0) = some op) (hlen : off + op.length ≤ S.length) :
    decode S off = .ok (op.instr (operandField (fetchWord S off op.length)), op.length) := by
  simp only [decode, hb, hcode, if_neg (Nat.not_lt.mpr hlen)]

/-- An octet whose code names no instruction, wherever it stands (R55, R60). -/
theorem decode_append_unrecognized (before after : Octets) {b0 : Octet} {c : Nat} (hb : b0.toNat % 8 = c)
    (hcode : Opcode.ofCode c = none) : decode (before ++ b0 :: after) before.length = .error (.unrecognizedOpcode c) := by
  have hfield : opcodeField b0 = c := (opcodeField_eq b0).trans hb
  rw [decode_of_ofCode_none (b0 := b0) (by simp) (hfield ▸ hcode), hfield]

/-- A first octet with the code of `op` and the octets `bs` that complete the word, wherever they stand (R55, R57). -/
theorem decode_append_word (before after : Octets) {b0 : Octet} {bs : Octets} {op : Opcode} (hb : b0.toNat % 8 = op.code)
    (hlen : (b0 :: bs).length = op.length) :
    decode (before ++ (b0 :: bs ++ after)) before.length = .ok (op.instr (littleEndian (b0 :: bs) >>> 3), op.length) := by
  have hcode : Opcode.ofCode (opcodeField b0) = some op := by rw [opcodeField_eq, hb, ofCode_code]
  have hend : before.length + op.length ≤ (before ++ (b0 :: bs ++ after)).length := by
    rw [List.length_append, List.length_append, hlen]
    omega
  rw [decode_of_ofCode_some (by simp) hcode hend, ← hlen, fetchWord_append, operandField]

/-- The kind of a decoded instruction is read off the low three bits of its first octet (R56). -/
theorem ofCode_of_decode_ok {S : Octets} {off : Nat} {b : Octet} {i : Instr} {n : Nat} (hb : S[off]? = some b)
    (h : decode S off = .ok (i, n)) : Opcode.ofCode (b.toNat % 8) = some i.opcode := by
  obtain ⟨b0, op, hb0, hop, -, -, rfl⟩ := decode_ok h
  obtain rfl : b0 = b := Option.some.inj (hb0.symm.trans hb)
  rw [instr_opcode, ← opcodeField_eq, hop]

/-! ## The operand field -/

theorem eight_mul_length (op : Opcode) : 8 * op.length = op.width + 3 := by cases op <;> rfl

/-- An instruction is well formed when its operand fits the field of its kind (R57). -/
theorem instr_wellFormed_iff (op : Opcode) (x : Nat) : (op.instr x).wellFormed = true ↔ x < 2 ^ op.width := by
  cases op <;> exact decide_eq_true_iff.trans Nat.lt_succ_iff.symm

/-- The operand of a word of the kind's length fits the kind's field. -/
theorem fetchWord_shiftRight_lt (S : Octets) (off : Nat) (op : Opcode) :
    fetchWord S off op.length >>> 3 < 2 ^ op.width := by
  have hw : fetchWord S off op.length < 2 ^ (op.width + 3) := eight_mul_length op ▸ fetchWord_lt S off op.length
  rw [Nat.shiftRight_eq_div_pow]
  exact Nat.div_lt_of_lt_mul (by rwa [Nat.pow_add, Nat.mul_comm] at hw)

/-! ## Encoding -/

theorem encodeMnemonic_natCast (op : Opcode) (x : Nat) : encodeMnemonic op.mnemonic x = .ok (op.encode x) := by
  simp only [encodeMnemonic, ofMnemonic_mnemonic, if_neg (Int.natCast_nonneg x).not_gt, Int.toNat_natCast]

theorem bitVec_ofNat_mod_two_pow {w m : Nat} (h : w ≤ m) (v : Nat) : BitVec.ofNat w (v % 2 ^ m) = BitVec.ofNat w v := by
  apply BitVec.eq_of_toNat_eq
  rw [BitVec.toNat_ofNat, BitVec.toNat_ofNat, Nat.mod_mod_of_dvd _ (Nat.pow_dvd_pow 2 h)]

/-- The first octet of an encoding is the low octet of the packed value: the cut to `8n` bits keeps it (R53, R63). -/
theorem opcode_encode_eq_cons (op : Opcode) (x : Nat) : ∃ e, op.encode x = BitVec.ofNat 8 (op.packed x) :: e := by
  obtain ⟨k, hk⟩ : ∃ k, op.length = k + 1 := by cases op <;> exact ⟨_, rfl⟩
  refine ⟨littleEndianOctets k (op.packed x % 2 ^ (8 * (k + 1)) / 256), ?_⟩
  rw [Opcode.encode, hk, littleEndianOctets, bitVec_ofNat_mod_two_pow (by omega)]

theorem ofNat_packed_and_seven (op : Opcode) (x : Nat) :
    BitVec.ofNat 8 (op.packed x) &&& 0b111#8 = BitVec.ofNat 8 op.code := by
  have hcode := code_lt op
  apply BitVec.eq_of_toNat_eq
  calc (BitVec.ofNat 8 (op.packed x) &&& 0b111#8).toNat
      = op.packed x % 2 ^ 8 &&& (2 ^ 3 - 1) := by rw [BitVec.toNat_and, BitVec.toNat_ofNat]; rfl
    _ = op.packed x % 2 ^ 8 % 2 ^ 3 := Nat.and_two_pow_sub_one_eq_mod _ 3
    _ = op.code % 2 ^ 8 := by rw [packed_eq]; omega
    _ = (BitVec.ofNat 8 op.code).toNat := (BitVec.toNat_ofNat ..).symm

/-! ## The obligations -/

/-- Settles O2: the four codes of the table decode the octets of their word, the other four are unrecognised. -/
theorem decoderFollowsOpcodeMap : Obligations.DecoderFollowsOpcodeMap := by
  intro before after b0 b1 b2 b3
  refine ⟨fun h => ?code0, fun h => ?loadc, fun h => ?code2, fun h => ?sgn, fun h => ?load, fun h => ?store,
    fun h => ?code6, fun h => ?code7⟩
  case loadc => rw [← littleEndian_four]; exact decode_append_word before after (op := .loadc) (bs := [b1, b2, b3]) h rfl
  case sgn => rw [← littleEndian_three]; exact decode_append_word before after (op := .sgn) (bs := [b1, b2]) h rfl
  case load => exact decode_append_word before after (op := .load) (bs := []) h rfl
  case store => rw [← littleEndian_three]; exact decode_append_word before after (op := .store) (bs := [b1, b2]) h rfl
  case code0 | code2 | code6 | code7 => exact decode_append_unrecognized before after h rfl

/-- Settles O4: both kinds are what the table gives for the same code, and the kind fixes the length. -/
theorem lowThreeBitsSelectTheInstruction : Obligations.LowThreeBitsSelectTheInstruction := by
  intro S S' off off' b b' i i' n n' hb hb' hlow h h'
  have hkind : i.opcode = i'.opcode := by
    have hi := ofCode_of_decode_ok hb h
    rw [hlow, ofCode_of_decode_ok hb' h'] at hi
    exact (Option.some.inj hi).symm
  exact ⟨hkind, by rw [decode_ok_length h, decode_ok_length h', hkind]⟩

/-- Settles O5: the shifted word is already below `2^W`, so slicing at bit `8n-1` cuts nothing off. -/
theorem decodedOperandIsTheShiftedWord : Obligations.DecodedOperandIsTheShiftedWord := by
  intro S off i n h
  obtain ⟨b0, op, -, -, -, rfl, rfl⟩ := decode_ok h
  have hlt := fetchWord_shiftRight_lt S off op
  have hbits : 8 * op.length - 1 - 3 + 1 = op.width := by cases op <;> rfl
  rw [instr_operand, instr_wellFormed_iff, operandField, slice, hbits, Nat.mod_eq_of_lt hlt]
  exact ⟨rfl, rfl, hlt, hlt⟩

/-- Settles O11. -/
theorem encoderKeepsLengthAndLowBits : Obligations.EncoderKeepsLengthAndLowBits := by
  intro op x
  obtain ⟨e, he⟩ := opcode_encode_eq_cons op x
  refine ⟨BitVec.ofNat 8 (op.packed x), e, ?encoded, ?length, ofNat_packed_and_seven op x⟩
  case encoded => rw [encodeMnemonic_natCast, he]
  case length => rw [← he, opcode_encode_length]

end Sys2Proof

/-!
Execution and silent halts: the next state of each instruction whose access is in range (R86, R98 to R101), and the step that takes
a decode signal (R84).
-/

namespace Sys2Proof.Machine

/-! ## Instructions whose access is in range -/

theorem exec_loadc (x : Nat) (s : State) : exec (.loadc x) s = .next ((s.setAcc x).advance 4) := rfl

theorem exec_sgn_of_inRange {x : Nat} (s : State) (hx : inRange (directAddress x) = true) :
    exec (.sgn x) s = .next ((s.setAcc (sign (readCell s.mem x))).advance 3) := by
  rw [exec, execSgn, memRead, if_pos hx]
  rfl

theorem exec_load_of_inRange {x : Nat} (s : State) (hx : inRange (accAddress s.acc x) = true) :
    exec (.load x) s = .next ((s.setAcc (readCell s.mem (accAddress s.acc x).toNat)).advance 1) := by
  rw [exec, execLoad, memRead, if_pos hx]
  rfl

/-! ## Decode signals -/

/-- Whichever signal the fetch answers, taking it sets `halted` and nothing else (R84). -/
theorem takeSignal_of_fetch_error {s : State} {sig : Signal} (h : s.fetch = .error sig) :
    s.takeSignal sig = { s with halted := true } := by
  obtain rfl | ⟨c, rfl, -⟩ := decode_error h
  · exact takeSignal_truncated s
  · exact takeSignal_unrecognized s c

theorem step_of_fetch_error {s : State} {sig : Signal} (hs : s.stopReason = none) (h : s.fetch = .error sig) :
    step s = .next { s with halted := true } := by
  simp only [step, hs, h, takeSignal_of_fetch_error h]

/-! ## The obligations -/

/-- Settles O24: each instruction's next state is its effect advanced, and moving `ip` beforehand leaves the address and the value
it moves as they are. -/
theorem instructionAdvancesIpAfterItsEffect : Obligations.InstructionAdvancesIpAfterItsEffect := by
  refine ⟨⟨rfl, rfl, rfl, rfl⟩, fun i s hexists => ?_⟩
  have hrange : ∀ a, dataAddress s.acc i = some a → inRange a = true := fun a ha => inRange_iff.mpr (hexists a ha)
  cases i with
  | loadc x => exact ⟨_, exec_loadc x s, rfl, fun p => exec_loadc x { s with ip := p }⟩
  | sgn x =>
    have hx : inRange (directAddress x) = true := hrange _ rfl
    exact ⟨_, exec_sgn_of_inRange s hx, rfl, fun p => exec_sgn_of_inRange { s with ip := p } hx⟩
  | load x =>
    have hx : inRange (accAddress s.acc x) = true := hrange _ rfl
    exact ⟨_, exec_load_of_inRange s hx, rfl, fun p => exec_load_of_inRange { s with ip := p } hx⟩
  | store x =>
    have hx : inRange (directAddress x) = true := hrange _ rfl
    exact ⟨_, exec_store_of_inRange s hx, rfl, fun p => exec_store_of_inRange { s with ip := p } hx⟩

/-- Settles O31: the halted state the signal leads to is terminal, so every run from it stays there. -/
theorem silentHaltSetsOnlyHalted : Obligations.SilentHaltSetsOnlyHalted := by
  intro s sig hrunning hfault hip hfetch
  have hs : s.stopReason = none := stopReason_none_iff.mpr ⟨hrunning, hfault, hip⟩
  exact ⟨step_of_fetch_error hs hfetch, run_of_terminal (terminal_of_halted rfl)⟩

end Sys2Proof.Machine

/-!
The sign of an integer (R97), and the encoding and effect of `LOADC` (R98).
-/

namespace Sys2Proof

/-- The cut to `8n` bits (R63) takes nothing off a well-formed instruction, of whichever kind. -/
theorem packed_lt_of_wellFormed (i : Instr) : Laws.PackedFits.Statement i := by
  cases i with
  | loadc x => exact Laws.PackedFits.loadc x
  | sgn x => exact Laws.PackedFits.sgn x
  | load x => exact Laws.PackedFits.load x
  | store x => exact Laws.PackedFits.store x

theorem encode_of_wellFormed {i : Instr} (h : i.wellFormed = true) :
    encode i = littleEndianOctets i.opcode.length (i.opcode.packed i.operand) := by
  rw [encode, Opcode.encode, Nat.mod_eq_of_lt (packed_lt_of_wellFormed i h)]

end Sys2Proof

namespace Sys2Proof.Machine

/-! ## The sign -/

theorem sign_of_neg {x : Int} (h : x < 0) : sign x = -1 := if_pos h

@[simp] theorem sign_zero : sign 0 = 0 := rfl

theorem sign_of_pos {x : Int} (h : 0 < x) : sign x = 1 := by
  rw [sign, if_neg h.not_gt, if_neg h.ne']

/-- The model's sign is the library's, whose laws (zero test, antisymmetry) it therefore has. -/
theorem sign_eq_int_sign (x : Int) : sign x = x.sign := by
  obtain hneg | rfl | hpos := lt_trichotomy x 0
  · rw [sign_of_neg hneg, Int.sign_eq_neg_one_of_neg hneg]
  · rw [sign_zero, Int.sign_zero]
  · rw [sign_of_pos hpos, Int.sign_eq_one_of_pos hpos]

theorem sign_eq_zero_iff {x : Int} : sign x = 0 ↔ x = 0 := by
  rw [sign_eq_int_sign, Int.sign_eq_zero_iff_zero]

theorem sign_neg (x : Int) : sign (-x) = -sign x := by
  rw [sign_eq_int_sign, sign_eq_int_sign, Int.sign_neg]

theorem sign_range (x : Int) : sign x = -1 ∨ sign x = 0 ∨ sign x = 1 := by
  obtain hneg | rfl | hpos := lt_trichotomy x 0
  · exact .inl (sign_of_neg hneg)
  · exact .inr (.inl sign_zero)
  · exact .inr (.inr (sign_of_pos hpos))

/-! ## The obligations -/

/-- Settles O17. -/
theorem signOfAnInteger : Obligations.SignOfAnInteger := fun x =>
  ⟨sign_of_neg, fun h => h ▸ sign_zero, sign_of_pos, sign_range x, sign_eq_zero_iff, fun _ => sign_neg x⟩

/-- Settles O18: an operand of the 29-bit field makes a well-formed instruction, so its encoding is the whole packed value. -/
theorem loadcLoadsItsOperand : Obligations.LoadcLoadsItsOperand := by
  intro x s hx
  have hwf : (Instr.loadc x).wellFormed = true := decide_eq_true hx
  exact ⟨encode_of_wellFormed hwf, exec_loadc x s⟩

end Sys2Proof.Machine

/-!
What the cells hold after launch (R118, R120): a cell the pre-seed names holds a value the pre-seed gives it, any other reads as
unlisted.
-/

namespace Sys2Proof.Machine

/-! ## Reads in range -/

theorem memRead_of_inRange {m : Memory} {a : Int} (h : inRange a = true) : memRead m a = .ok (readCell m a.toNat) :=
  if_pos h

/-! ## The memory of a launch -/

theorem preseeded_append_singleton (P : List (Int × Int)) (c : Int × Int) :
    preseeded (P ++ [c]) = writeCell (preseeded P) c.1.toNat c.2 :=
  List.foldl_concat ..

/-- What a cell holds after the pre-seed is written. Which of several pairs for the cell gives the value is left open: that depends
on the order of the list (log 9). -/
theorem readCell_preseeded (P : List (Int × Int)) (a : Nat) :
    (∃ c ∈ P, c.1.toNat = a ∧ readCell (preseeded P) a = c.2) ∨
      ((∀ c ∈ P, c.1.toNat ≠ a) ∧ readCell (preseeded P) a = unlistedCell) := by
  induction P using List.reverseRecOn with
  | nil => exact .inr ⟨by simp, rfl⟩
  | append_singleton P c ih =>
    rw [preseeded_append_singleton]
    by_cases hc : c.1.toNat = a
    · subst hc
      exact .inl ⟨c, by simp, rfl, readCell_writeCell_same ..⟩
    · rw [readCell_writeCell_other _ _ (Ne.symm hc)]
      obtain ⟨d, hd, hda, hread⟩ | ⟨hnone, hread⟩ := ih
      · exact .inl ⟨d, List.mem_append_left _ hd, hda, hread⟩
      · exact .inr ⟨List.forall_mem_append.mpr ⟨hnone, List.forall_mem_singleton.mpr hc⟩, hread⟩

/-- The cell at an existing address after a launch: pre-seeded addresses exist too, so no two of them share a cell. -/
theorem memRead_preseeded {P : List (Int × Int)} (hP : ∀ c ∈ P, inRange c.1 = true) {a : Int} (ha : inRange a = true) :
    (∃ v, (a, v) ∈ P ∧ memRead (preseeded P) a = .ok v) ∨
      ((∀ c ∈ P, c.1 ≠ a) ∧ memRead (preseeded P) a = .ok unlistedCell) := by
  rw [memRead_of_inRange ha]
  obtain ⟨c, hc, hca, hread⟩ | ⟨hnone, hread⟩ := readCell_preseeded P a.toNat
  · obtain ⟨hc0, -⟩ := inRange_iff.mp (hP c hc)
    obtain ⟨ha0, -⟩ := inRange_iff.mp ha
    obtain rfl : c.1 = a := by omega
    exact .inl ⟨c.2, hc, congrArg _ hread⟩
  · exact .inr ⟨fun c hc hca => hnone c hc (congrArg _ hca), congrArg _ hread⟩

/-! ## The obligation -/

/-- Settles O48: of the two things a cell can read after launch, a named cell reads the one, any other cell the other. -/
theorem resetLeavesNothingUnspecified : Obligations.ResetLeavesNothingUnspecified := by
  intro S P s h
  obtain ⟨hP, rfl⟩ := launch_ok h
  refine ⟨rfl, rfl, rfl, rfl, rfl, fun a ha0 ha1 => ?cell⟩
  obtain ⟨v, hv, hread⟩ | ⟨hnone, hread⟩ := memRead_preseeded hP (inRange_iff.mpr ⟨ha0, ha1⟩)
  · exact ⟨fun hnone => absurd rfl (hnone (a, v) hv), fun _ => ⟨v, hv, hread⟩⟩
  · exact ⟨fun _ => hread, fun ⟨c, hc, hca⟩ => absurd hca (hnone c hc)⟩

end Sys2Proof.Machine

/-!
The two round trips of the codec (30_encoding.md section 8), the octets a decoding reads, and the signals of decoder and encoder.
-/

namespace Sys2Proof

/-! ## Encoding -/

/-- The cut of the packed value to `8n` bits (R63) is a cut of the operand to its field. -/
theorem packed_mod (op : Opcode) (x : Nat) : op.packed x % 2 ^ (8 * op.length) = op.packed (x % 2 ^ op.width) := by
  have hcode := code_lt op
  have hpow : 2 ^ (8 * op.length) = 8 * 2 ^ op.width := by rw [eight_mul_length, Nat.pow_add, Nat.mul_comm]
  have hdiv : (8 * x + op.code) / 8 = x := by omega
  rw [packed_eq, packed_eq, hpow, Nat.mod_mul, hdiv]
  omega

theorem opcode_encode_eq (op : Opcode) (x : Nat) :
    op.encode x = littleEndianOctets op.length (op.packed (x % 2 ^ op.width)) := by
  rw [Opcode.encode, packed_mod]

/-- The word of an encoding is the operand's field above the code. -/
theorem littleEndian_encode (op : Opcode) (x : Nat) : littleEndian (op.encode x) = op.packed (x % 2 ^ op.width) := by
  rw [Opcode.encode, littleEndian_littleEndianOctets, show 256 = 2 ^ 8 from rfl, ← Nat.pow_mul, Nat.mod_mod, packed_mod]

theorem packed_shiftRight (op : Opcode) (x : Nat) : op.packed x >>> 3 = x := by
  have hcode := code_lt op
  rw [packed_eq, Nat.shiftRight_eq_div_pow]
  omega

theorem operand_mod_of_wellFormed {i : Instr} (h : i.wellFormed = true) : i.operand % 2 ^ i.opcode.width = i.operand := by
  rw [← opcode_instr_operand i, instr_wellFormed_iff] at h
  exact Nat.mod_eq_of_lt h

/-! ## Decoding -/

/-- Octets that encode an operand decode to its low bits, wherever they stand. -/
theorem decode_append_encode (op : Opcode) (x : Nat) (before after : Octets) :
    decode (before ++ op.encode x ++ after) before.length = .ok (op.instr (x % 2 ^ op.width), op.length) := by
  obtain ⟨e, he⟩ := opcode_encode_eq_cons op x
  have hcode : (BitVec.ofNat 8 (op.packed x)).toNat % 8 = op.code := by
    have := code_lt op
    rw [BitVec.toNat_ofNat, packed_eq]
    omega
  have hlen : (BitVec.ofNat 8 (op.packed x) :: e).length = op.length := by rw [← he, opcode_encode_length]
  rw [List.append_assoc, he, decode_append_word before after hcode hlen, ← he, littleEndian_encode, packed_shiftRight]

theorem opcode_length_pos (op : Opcode) : 0 < op.length := by cases op <;> decide

/-- The first octet gives the low three bits of the fetched word. -/
theorem fetchWord_mod_eight {S : Octets} {off n : Nat} {b0 : Octet} (hb : S[off]? = some b0) (hn : 0 < n) :
    fetchWord S off n % 8 = b0.toNat % 8 := by
  obtain ⟨n, rfl⟩ := Nat.exists_eq_succ_of_ne_zero hn.ne'
  obtain ⟨hlt, rfl⟩ := List.getElem?_eq_some_iff.mp hb
  rw [fetchWord, List.drop_eq_getElem_cons hlt, List.take_succ_cons, littleEndian]
  omega

/-- A decoded word is its operand above its code, so encoding it again loses nothing. -/
theorem encode_of_decode_ok {S : Octets} {off : Nat} {i : Instr} {n : Nat} (h : decode S off = .ok (i, n)) :
    encode i = (S.drop off).take n := by
  obtain ⟨b0, op, hb, hop, hend, rfl, rfl⟩ := decode_ok h
  have hlen : ((S.drop off).take op.length).length = op.length := by
    rw [List.length_take, List.length_drop]
    omega
  have hcode : op.code = fetchWord S off op.length % 8 := by
    rw [fetchWord_mod_eight hb (opcode_length_pos op), ← opcodeField_eq, code_of_ofCode hop]
  have hpacked : op.packed (operandField (fetchWord S off op.length)) = fetchWord S off op.length := by
    rw [packed_eq, operandField_eq, hcode]
    omega
  rw [encode, instr_opcode, instr_operand, Opcode.encode, hpacked, Nat.mod_eq_of_lt (fetchWord_lt ..), fetchWord]
  calc littleEndianOctets op.length (littleEndian ((S.drop off).take op.length))
      = littleEndianOctets ((S.drop off).take op.length).length (littleEndian ((S.drop off).take op.length)) := by rw [hlen]
    _ = (S.drop off).take op.length := littleEndianOctets_littleEndian _

theorem decode_ok_le_length {S : Octets} {off : Nat} {i : Instr} {n : Nat} (h : decode S off = .ok (i, n)) :
    off + n ≤ S.length := by
  obtain ⟨b0, op, -, -, hend, rfl, -⟩ := decode_ok h
  exact hend

/-- A stream with the same octets in an instruction's places decodes alike there. -/
theorem decode_congr {S S' : Octets} {off : Nat} {i : Instr} {n : Nat} (h : decode S off = .ok (i, n))
    (hsame : (S'.drop off).take n = (S.drop off).take n) : decode S' off = .ok (i, n) := by
  obtain ⟨b0, op, hb, hop, hend, rfl, rfl⟩ := decode_ok h
  have hpos := opcode_length_pos op
  have hfirst : ∀ T : Octets, ((T.drop off).take op.length)[0]? = T[off]? := fun T => by
    rw [List.getElem?_take_of_lt hpos, List.getElem?_drop, Nat.add_zero]
  have hb' : S'[off]? = some b0 := by rw [← hfirst, hsame, hfirst, hb]
  have hend' : off + op.length ≤ S'.length := by
    have hlen := congrArg List.length hsame
    simp only [List.length_take, List.length_drop] at hlen
    omega
  rw [decode_of_ofCode_some hb' hop hend', fetchWord, hsame, fetchWord]

/-! ## Signals -/

theorem decode_of_length_le {S : Octets} {off : Nat} (h : S.length ≤ off) : decode S off = .error .truncatedInstruction := by
  simp only [decode, List.getElem?_eq_none h]

theorem decode_of_short {S : Octets} {off : Nat} {b0 : Octet} {op : Opcode} (hb : S[off]? = some b0)
    (hcode : Opcode.ofCode (opcodeField b0) = some op) (hlen : S.length < off + op.length) :
    decode S off = .error .truncatedInstruction := by
  simp only [decode, hb, hcode, if_pos hlen]

/-- The codes of three bits without an instruction (R55, R60). -/
theorem code_of_ofCode_none {c : Nat} (hc : c < 8) (h : Opcode.ofCode c = none) : c = 0 ∨ c = 2 ∨ c = 6 ∨ c = 7 := by
  have hne : ∀ op : Opcode, c ≠ op.code := by
    rintro op rfl
    rw [ofCode_code] at h
    cases h
  have h1 : c ≠ 1 := hne .loadc
  have h3 : c ≠ 3 := hne .sgn
  have h4 : c ≠ 4 := hne .load
  have h5 : c ≠ 5 := hne .store
  omega

theorem ofMnemonic_eq_none {m : Text} (h : ∀ op : Opcode, m ≠ op.mnemonic) : Opcode.ofMnemonic m = none := by
  cases hm : Opcode.ofMnemonic m with
  | none => rfl
  | some op => exact absurd (mnemonic_of_ofMnemonic hm).symm (h op)

/-! ## The obligations -/

/-- Settles O8: the octets decode to the low operand bits, which are the whole of a well-formed operand. -/
theorem encodeThenDecodeGivesTheInstruction : Obligations.EncodeThenDecodeGivesTheInstruction := by
  intro i before after h
  refine ⟨encodeMnemonic_natCast i.opcode i.operand, ?_⟩
  rw [encode, decode_append_encode, operand_mod_of_wellFormed h, opcode_instr_operand]

/-- Settles O10: two octet sequences that decode to one instruction are both its encoding. -/
theorem decodeThenEncodeGivesTheOctets : Obligations.DecodeThenEncodeGivesTheOctets := by
  have hwhole : ∀ (e : Octets) (i : Instr) (n : Nat), decode e 0 = .ok (i, n) → e.length = n → e = encode i := by
    rintro e i _ h rfl
    rw [encode_of_decode_ok h, List.drop_zero, List.take_length]
  exact ⟨fun S off i n => encode_of_decode_ok, fun e e' i n h h' hn hn' => (hwhole e i n h hn).trans (hwhole e' i n h' hn').symm⟩

/-- Settles O6. -/
theorem decoderReadsOnlyTheInstruction : Obligations.DecoderReadsOnlyTheInstruction :=
  fun _ _ _ _ h => ⟨decode_ok_le_length h, fun _ => decode_congr h⟩

/-- Settles O7, along the decoder's three tests: an octet at the offset, its code, the length. -/
theorem decoderSignalsAreTwo : Obligations.DecoderSignalsAreTwo := by
  intro S off
  cases hb : S[off]? with
  | none => exact .inr (.inl (decode_of_length_le (List.getElem?_eq_none_iff.mp hb)))
  | some b0 =>
    cases hop : Opcode.ofCode (opcodeField b0) with
    | none =>
      have hlt : opcodeField b0 < 8 := by rw [opcodeField_eq]; omega
      exact .inr (.inr ⟨_, decode_of_ofCode_none hb hop, code_of_ofCode_none hlt hop⟩)
    | some op =>
      obtain hlen | hlen := Nat.lt_or_ge S.length (off + op.length)
      · exact .inr (.inl (decode_of_short hb hop hlen))
      · exact .inl ⟨_, _, decode_of_ofCode_some hb hop hlen⟩

/-- Settles O9. -/
theorem encodeThenDecodeKeepsTheLowOperandBits : Obligations.EncodeThenDecodeKeepsTheLowOperandBits := by
  intro op x
  refine ⟨op.encode x, encodeMnemonic_natCast op x, ?_⟩
  simpa using decode_append_encode op x [] []

/-- Settles O12. -/
theorem encoderDropsHighOperandBits : Obligations.EncoderDropsHighOperandBits := by
  intro op x
  rw [encodeMnemonic_natCast, opcode_encode_eq, Opcode.packed]

/-- Settles O1: the words are literals, so the decoder computes each answer. -/
theorem specWordsDecode : Obligations.SpecWordsDecode := ⟨rfl, rfl, rfl, rfl, rfl, rfl⟩

/-- Settles O3. -/
theorem decoderReportsShortStreams : Obligations.DecoderReportsShortStreams :=
  fun _ _ => ⟨decode_of_length_le, fun _ _ => decode_of_short⟩

/-- Settles O13. -/
theorem encoderRefusals : Obligations.EncoderRefusals := by
  refine ⟨fun op x hx => ?negative, fun m x hm => ?unknown⟩
  case negative => simp only [encodeMnemonic, ofMnemonic_mnemonic, if_pos hx]
  case unknown => simp only [encodeMnemonic, ofMnemonic_eq_none hm]

end Sys2Proof

/-!
The data memory: checked accesses (R37, R38), and that a canonical memory is determined by its cells (log 3).
-/

namespace Sys2Proof.Machine

/-! ## Checked accesses -/

theorem memRead_of_outOfRange {m : Memory} {a : Int} (h : inRange a = false) : memRead m a = .error (.memoryFault a) := by
  simp [memRead, h]

theorem memWrite_of_inRange {m : Memory} {a : Int} (v : Int) (h : inRange a = true) :
    memWrite m a v = .ok (writeCell m a.toNat v) :=
  if_pos h

theorem memWrite_of_outOfRange {m : Memory} {a : Int} (v : Int) (h : inRange a = false) :
    memWrite m a v = .error (.memoryFault a) := by
  simp [memWrite, h]

/-! ## The pairs of a canonical memory -/

/-- A cell is unlisted, or the list has the pair that says what it reads as. -/
theorem readCell_cases (m : Memory) (a : Nat) : readCell m a = unlistedCell ∨ (a, readCell m a) ∈ m := by
  induction m with
  | nil => exact .inl rfl
  | cons c m ih =>
    obtain ⟨b, v⟩ := c
    simp only [readCell]
    split
    · next h => exact .inr (h ▸ List.mem_cons_self)
    · exact ih.imp_right (List.mem_cons_of_mem _)

/-- Addresses rise, so the first pair for an address is the only one. -/
theorem readCell_of_mem {m : Memory} (hm : m.Pairwise (fun c d => c.1 < d.1)) {c : Nat × Int} (hc : c ∈ m) :
    readCell m c.1 = c.2 := by
  induction m with
  | nil => cases hc
  | cons d m ih =>
    obtain ⟨hfirst, hrest⟩ := List.pairwise_cons.mp hm
    simp only [readCell]
    rcases List.mem_cons.mp hc with rfl | hc
    · exact if_pos rfl
    · rw [if_neg (hfirst c hc).ne, ih hrest hc]

/-- The list holds exactly the pairs of the cells that differ from an unlisted one. -/
theorem mem_iff_readCell {m : Memory} (hm : m.wf) (c : Nat × Int) :
    c ∈ m ↔ c.2 ≠ unlistedCell ∧ readCell m c.1 = c.2 := by
  obtain ⟨hsorted, hlisted⟩ := hm
  constructor
  · intro hc
    obtain ⟨hne, -⟩ := hlisted c hc
    exact ⟨hne, readCell_of_mem hsorted hc⟩
  · rintro ⟨hne, hread⟩
    obtain hunlisted | hmem := readCell_cases m c.1
    · exact absurd (hread.symm.trans hunlisted) hne
    · rwa [hread] at hmem

/-! ## The obligations -/

/-- Settles O14. -/
theorem checkedMemoryAccess : Obligations.CheckedMemoryAccess := by
  refine fun m a v => ⟨fun h => ?cell, fun h => ?missing⟩
  case cell =>
    have ha := inRange_iff.mpr h
    exact ⟨memRead_of_inRange ha, _, memWrite_of_inRange v ha, readCell_writeCell_same .., fun b => readCell_writeCell_other m v⟩
  case missing =>
    have ha := inRange_false_iff.mpr h
    exact ⟨memRead_of_outOfRange ha, memWrite_of_outOfRange v ha⟩

/-- Settles O15: the two lists have the same pairs, each by rising address. -/
theorem canonicalMemoriesThatReadAlikeAreEqual : Obligations.CanonicalMemoriesThatReadAlikeAreEqual := by
  intro m m' hm hm' hread
  have : Std.Irrefl fun c d : Nat × Int => c.1 < d.1 := ⟨fun c => Nat.lt_irrefl c.1⟩
  have : Std.Antisymm fun c d : Nat × Int => c.1 < d.1 := ⟨fun _ _ h h' => absurd h h'.asymm⟩
  have hsame : ∀ c, c ∈ m ↔ c ∈ m' := fun c => by rw [mem_iff_readCell hm, mem_iff_readCell hm', hread]
  exact hm.1.eq_of_mem_iff hm'.1 hsame

end Sys2Proof.Machine

/-!
Instructions and steps: an access outside `0..1023` (R87, R106), what each instruction leaves unchanged (R98 to R101), and what a
step depends on and writes (R80, R81).
-/

namespace Sys2Proof.Machine

/-! ## Addresses -/

theorem inRange_directAddress_iff {x : Nat} : inRange (directAddress x) = true ↔ x ≤ 1023 := by
  rw [inRange_iff, directAddress]
  omega

theorem inRange_directAddress_false_iff {x : Nat} : inRange (directAddress x) = false ↔ 1023 < x := by
  rw [inRange_false_iff, directAddress]
  omega

/-! ## Instructions -/

/-- An access that does not exist writes `fault` and nothing else, whichever instruction makes it (R87, R106). -/
theorem exec_of_outOfRange {i : Instr} {s : State} {a : Int} (ha : dataAddress s.acc i = some a) (hr : inRange a = false) :
    exec i s = .next { s with fault := some a } := by
  cases i with
  | loadc x => cases ha
  | sgn x =>
    cases ha
    rw [exec, execSgn, memRead_of_outOfRange hr]
    rfl
  | load x =>
    cases ha
    rw [exec, execLoad, memRead_of_outOfRange hr]
    rfl
  | store x =>
    cases ha
    rw [exec, execStore, memWrite_of_outOfRange _ hr]
    rfl

/-- An instruction completes and advances by its length, or faults at its data address. -/
theorem exec_completes_or_faults {i : Instr} {s t : State} (h : exec i s = .next t) :
    (t.ip = s.ip + i.opcode.length ∧ t.fault = s.fault) ∨
    (∃ a, dataAddress s.acc i = some a ∧ inRange a = false ∧ t = { s with fault := some a }) := by
  obtain ⟨x, rfl, rfl⟩ | ⟨x, rfl, -, rfl⟩ | ⟨x, rfl, -, rfl⟩ | ⟨x, rfl, -, rfl⟩ | hfault := exec_next h
  case inl => exact .inl ⟨rfl, rfl⟩ -- `LOADC`
  case inr.inl => exact .inl ⟨rfl, rfl⟩ -- `SGN`
  case inr.inr.inl => exact .inl ⟨rfl, rfl⟩ -- `LOAD`
  case inr.inr.inr.inl => exact .inl ⟨rfl, rfl⟩ -- `STORE`
  case inr.inr.inr.inr => exact .inr hfault

/-- Without a fault before, an instruction records one exactly on an address that does not exist. -/
theorem exec_fault_ne_none_iff {i : Instr} {s t : State} (hs : s.fault = none) (h : exec i s = .next t) :
    t.fault ≠ none ↔ ∃ a, dataAddress s.acc i = some a ∧ inRange a = false := by
  constructor
  · intro ht
    obtain ⟨-, hkept⟩ | ⟨a, ha, hr, -⟩ := exec_completes_or_faults h
    · exact absurd (hkept.trans hs) ht
    · exact ⟨a, ha, hr⟩
  · rintro ⟨a, ha, hr⟩
    rw [exec_of_outOfRange ha hr] at h
    cases h
    simp

theorem exec_stream {i : Instr} {s t : State} (h : exec i s = .next t) : t.stream = s.stream := by
  obtain ⟨x, -, rfl⟩ | ⟨x, -, -, rfl⟩ | ⟨x, -, -, rfl⟩ | ⟨x, -, -, rfl⟩ | ⟨a, -, -, rfl⟩ := exec_next h
  case inl => simp -- `LOADC`
  case inr.inl => simp -- `SGN`
  case inr.inr.inl => simp -- `LOAD`
  case inr.inr.inr.inl => simp -- `STORE`
  case inr.inr.inr.inr => rfl -- a memory fault

/-- `STORE` never writes the accumulator. -/
theorem exec_store_acc {x : Nat} {s t : State} (h : exec (.store x) s = .next t) : t.acc = s.acc := by
  cases hr : inRange (directAddress x) with
  | true =>
    rw [exec_store_of_inRange s hr] at h
    cases h
    simp
  | false =>
    rw [exec_of_outOfRange rfl hr] at h
    cases h
    rfl

/-- No instruction reads the stream: executed over another one it does the same. -/
theorem exec_withStream {i : Instr} {s t : State} (S : Octets) (h : exec i s = .next t) :
    exec i { s with stream := S } = .next { t with stream := S } := by
  obtain ⟨x, rfl, rfl⟩ | ⟨x, rfl, hr, rfl⟩ | ⟨x, rfl, hr, rfl⟩ | ⟨x, rfl, hr, rfl⟩ | ⟨a, ha, hr, rfl⟩ := exec_next h
  case inl => exact exec_loadc ..
  case inr.inl => exact exec_sgn_of_inRange { s with stream := S } hr
  case inr.inr.inl => exact exec_load_of_inRange { s with stream := S } hr
  case inr.inr.inr.inl => exact exec_store_of_inRange { s with stream := S } hr
  case inr.inr.inr.inr => exact exec_of_outOfRange (s := { s with stream := S }) ha hr

/-! ## Steps -/

theorem step_of_fetch_ok {s : State} {i : Instr} {n : Nat} (hs : s.stopReason = none) (h : s.fetch = .ok (i, n)) :
    step s = exec i s := by
  simp only [step, hs, h]

/-- Where an instruction is fetched, `ip` is inside the stream. -/
theorem ip_lt_of_fetch_ok {s : State} {i : Instr} {n : Nat} (h : s.fetch = .ok (i, n)) : s.ip < s.streamLength := by
  have hend : s.ip + n ≤ s.streamLength := decode_ok_le_length h
  have hpos : 0 < n := decode_ok_length h ▸ opcode_length_pos i.opcode
  omega

theorem stopReason_none_of_fetch_ok {s : State} {i : Instr} {n : Nat} (hhalted : s.halted = false) (hfault : s.fault = none)
    (h : s.fetch = .ok (i, n)) : s.stopReason = none :=
  stopReason_none_iff.mpr ⟨hhalted, hfault, ip_lt_of_fetch_ok h⟩

theorem step_enabled_iff {s : State} : (∃ t, step s = .next t) ↔ s.terminal = false := by
  constructor
  · rintro ⟨t, h⟩
    obtain ⟨hs, -⟩ := step_next h
    exact terminal_false_iff.mpr (stopReason_none_iff.mp hs)
  · exact step_isNext

theorem terminal_of_fault {s : State} {a : Int} (h : s.fault = some a) : s.terminal = true := by
  by_contra hs
  obtain ⟨-, hnone, -⟩ := terminal_false_iff.mp (Bool.eq_false_of_not_eq_true hs)
  simp [h] at hnone

theorem step_stream {s t : State} (h : step s = .next t) : t.stream = s.stream := by
  obtain ⟨-, ⟨sig, -, rfl⟩ | ⟨i, n, -, hexec⟩⟩ := step_next h
  · rfl
  · exact exec_stream hexec

/-- What a step does to the registers that steer a run: a silent halt or a memory fault leaves `ip`, an executed instruction
advances it by the fetched length. -/
theorem step_halts_completes_or_faults {s t : State} (h : step s = .next t) :
    (∃ sig, s.fetch = .error sig ∧ t = { s with halted := true }) ∨
    ∃ i n, s.fetch = .ok (i, n) ∧ exec i s = .next t ∧
      ((t.ip = s.ip + n ∧ t.fault = s.fault) ∨
       ∃ a, dataAddress s.acc i = some a ∧ inRange a = false ∧ t = { s with fault := some a }) := by
  obtain ⟨-, hhalt | ⟨i, n, hf, hexec⟩⟩ := step_next h
  · exact .inl hhalt
  · exact .inr ⟨i, n, hf, hexec, decode_ok_length hf ▸ exec_completes_or_faults hexec⟩

/-! ## The obligations about instructions -/

/-- Settles O19. -/
theorem sgnLoadsTheSignOfTheCell : Obligations.SgnLoadsTheSignOfTheCell :=
  fun _ s hx => exec_sgn_of_inRange s (inRange_directAddress_iff.mpr hx)

/-- Settles O20. -/
theorem loadReadsTheCellAtAccPlusOffset : Obligations.LoadReadsTheCellAtAccPlusOffset :=
  fun _ s h0 h1 => exec_load_of_inRange s (inRange_iff.mpr ⟨h0, h1⟩)

/-- Settles O21. -/
theorem storeWritesTheAccumulator : Obligations.StoreWritesTheAccumulator :=
  fun x s hx => ⟨writeCell s.mem x s.acc, exec_store_of_inRange s (inRange_directAddress_iff.mpr hx),
    readCell_writeCell_same .., fun _ => readCell_writeCell_other s.mem s.acc⟩

/-- Settles O22. -/
theorem outOfRangeAccessWritesOnlyFault : Obligations.OutOfRangeAccessWritesOnlyFault := by
  refine fun x s => ⟨fun hx => ?direct, fun hx => exec_of_outOfRange rfl (inRange_false_iff.mpr hx)⟩
  have hr := inRange_directAddress_false_iff.mpr hx
  exact ⟨exec_of_outOfRange rfl hr, exec_of_outOfRange rfl hr⟩

/-- Settles O23: each instruction's clause is the general one at its data address. -/
theorem memoryFaultExactlyOutOfRange : Obligations.MemoryFaultExactlyOutOfRange := by
  refine ⟨fun x s t hs => ⟨fun h => ?loadc, fun h => ?sgn, fun h => ?load, fun h => ?store⟩, fun S off a h => ?fetch⟩
  case loadc =>
    cases h
    exact hs
  case sgn => simp [exec_fault_ne_none_iff hs h, dataAddress, inRange_directAddress_false_iff]
  case load => simp [exec_fault_ne_none_iff hs h, dataAddress, inRange_false_iff, accAddress]
  case store => simp [exec_fault_ne_none_iff hs h, dataAddress, inRange_directAddress_false_iff]
  case fetch => obtain h | ⟨c, h, -⟩ := decode_error h <;> cases h

/-- Settles O25. -/
theorem loadingInstructionsFrame : Obligations.LoadingInstructionsFrame := by
  intro i s t hi h
  refine ⟨fun b => readCell_exec_of_ne_store h (hi b), exec_halted h, exec_stream h, ?fault⟩
  obtain ⟨-, hkept⟩ | ⟨a, ha, hr, hfault⟩ := exec_completes_or_faults h
  · exact .inl hkept
  · exact .inr ⟨a, ha, inRange_false_iff.mp hr, hfault⟩

/-- Settles O26. -/
theorem storeFrame : Obligations.StoreFrame := by
  intro x s t h
  refine ⟨exec_store_acc h, exec_halted h, exec_stream h, fun a ha b hb => ?cells, ?fault⟩
  case cells =>
    refine readCell_exec_of_ne_store h fun hsame => hb ?_
    cases hsame
    exact ha
  case fault =>
    obtain ⟨-, hkept⟩ | ⟨a, ha, hr, hfault⟩ := exec_completes_or_faults h
    · exact .inl hkept
    · cases ha
      exact .inr ⟨inRange_directAddress_false_iff.mp hr, hfault⟩

/-- Settles O27: the `STORE` leaves the accumulator, so the address of the `LOAD` after it is still the stored cell's. -/
theorem readAfterStoreSeesTheStoredValue : Obligations.ReadAfterStoreSeesTheStoredValue := by
  intro x y s hx
  have hr := inRange_directAddress_iff.mpr hx
  refine ⟨_, exec_store_of_inRange s hr, ⟨_, exec_sgn_of_inRange _ hr, by simp⟩, fun hy => ?load⟩
  have haddr : accAddress s.acc y = directAddress x := hy
  refine ⟨_, exec_load_of_inRange _ (haddr ▸ hr), ?_⟩
  simp [haddr, directAddress]

/-! ## The obligations about steps -/

/-- Settles O28. -/
theorem stepRunsTheDecodedInstruction : Obligations.StepRunsTheDecodedInstruction :=
  fun _ _ _ hhalted hfault h _ => ⟨step_of_fetch_ok (stopReason_none_of_fetch_ok hhalted hfault h) h, decode_ok_length h⟩

/-- Settles O29. -/
theorem stepIsEnabledExactly : Obligations.StepIsEnabledExactly :=
  fun _ => step_enabled_iff.trans terminal_false_iff

/-- Settles O30. -/
theorem terminalStepNamesTheReason : Obligations.TerminalStepNamesTheReason := by
  refine fun s => ⟨fun h => ?halted, fun a h ha => ?faulted, fun h hf hip => ?exhausted⟩ <;> apply step_of_stopReason
  case halted => simp [State.stopReason, h]
  case faulted => simp [State.stopReason, h, ha]
  case exhausted => simp [State.stopReason, h, hf, hip]

/-- Settles O32. -/
theorem faultEntryIsPreciseAndFatal : Obligations.FaultEntryIsPreciseAndFatal := by
  intro s t h hne
  obtain ⟨sig, -, rfl⟩ | ⟨i, n, -, -, ⟨-, hkept⟩ | ⟨a, -, hr, rfl⟩⟩ := step_halts_completes_or_faults h
  · exact absurd rfl hne
  · exact absurd hkept hne
  · have hterminal : State.terminal { s with fault := some a } = true := terminal_of_fault rfl
    exact ⟨a, inRange_false_iff.mp hr, rfl, hterminal, run_of_terminal hterminal⟩

/-- Settles O33. -/
theorem ipOnlyAdvances : Obligations.IpOnlyAdvances := by
  intro s t h
  obtain ⟨sig, -, rfl⟩ | ⟨i, n, hf, -, ⟨hip, -⟩ | ⟨a, -, -, rfl⟩⟩ := step_halts_completes_or_faults h
  · exact .inl rfl
  · have hlength : n = 1 ∨ n = 3 ∨ n = 4 := by
      rw [decode_ok_length hf]
      cases i.opcode <;> decide
    omega
  · exact .inl rfl

/-- Settles O34: the cell changes at a `STORE` to it, and not where that faults. -/
theorem stepWritesOnlyByTheInstructionsNamed : Obligations.StepWritesOnlyByTheInstructionsNamed := by
  refine fun s t h => ⟨fun hne => ?acc, fun a hne => ?cell, step_stream h⟩
  case acc =>
    obtain ⟨-, ⟨sig, -, rfl⟩ | ⟨i, n, hf, hexec⟩⟩ := step_next h
    · exact absurd rfl hne
    · refine ⟨i, n, hf, ?_⟩
      cases i with
      | loadc x => exact .inl rfl
      | sgn x => exact .inr (.inl rfl)
      | load x => exact .inr (.inr rfl)
      | store x => exact absurd (exec_store_acc hexec) hne
  case cell =>
    obtain ⟨hrunning, hf⟩ : s.stores a := by
      by_contra hn
      exact hne (readCell_step_of_not_stores h hn)
    refine ⟨hf, ?_⟩
    rw [step_of_fetch_ok (stopReason_none_iff.mpr (terminal_false_iff.mp hrunning)) hf] at h
    cases hr : inRange (directAddress a) with
    | true =>
      rw [exec_store_of_inRange s hr] at h
      cases h
      simp
    | false =>
      rw [exec_of_outOfRange rfl hr] at h
      cases h
      exact absurd rfl hne

/-- Settles O35: the other stream decodes alike at `ip`, and the instruction reads neither. -/
theorem stepIgnoresOtherOctets : Obligations.StepIgnoresOtherOctets := by
  intro s S i n hhalted hfault hf hsame
  have hf' : State.fetch { s with stream := S } = .ok (i, n) := decode_congr hf hsame
  obtain ⟨t, ht⟩ := exec_isNext i s
  refine ⟨t, ?_, ?_⟩
  · rw [step_of_fetch_ok (stopReason_none_of_fetch_ok hhalted hfault hf) hf, ht]
  · rw [step_of_fetch_ok (stopReason_none_of_fetch_ok (s := { s with stream := S }) hhalted hfault hf') hf',
      exec_withStream S ht]

end Sys2Proof.Machine

/-!
The invariant of a run (10_state.md sections 3 to 5, 60_exceptions.md section 2), and the values the machine can hold (10_state.md
section 2).
-/

namespace Sys2Proof.Machine

/-! ## What the invariant is made of -/

/-- A state with canonical memory at the start of its stream, neither halted nor faulted, satisfies the invariant. -/
theorem invariant_of_start {s : State} (hmem : s.mem.wf) (hip : s.ip = 0) (hhalted : s.halted = false) (hfault : s.fault = none) :
    Invariant s :=
  ⟨hmem, hip ▸ Nat.zero_le _, fun h => by simp [hhalted] at h, fun a h => by simp [hfault] at h⟩

/-- Only `STORE` writes memory, and only a cell that exists. -/
theorem exec_mem_wf {i : Instr} {s t : State} (hs : s.mem.wf) (h : exec i s = .next t) : t.mem.wf := by
  obtain ⟨x, -, rfl⟩ | ⟨x, -, -, rfl⟩ | ⟨x, -, -, rfl⟩ | ⟨x, -, hr, rfl⟩ | ⟨a, -, -, rfl⟩ := exec_next h
  case inl => exact hs -- `LOADC`
  case inr.inl => exact hs -- `SGN`
  case inr.inr.inl => exact hs -- `LOAD`
  case inr.inr.inr.inl => -- `STORE`
    have hx : x ≤ 1023 := inRange_directAddress_iff.mp hr
    exact writeCell_wf hs (Nat.lt_succ_of_le hx) _
  case inr.inr.inr.inr => exact hs -- a memory fault

/-- An instruction of the stream ends inside it, so executing it keeps `ip` there. -/
theorem exec_ip_le {i : Instr} {n : Nat} {s t : State} (hf : s.fetch = .ok (i, n)) (h : exec i s = .next t) :
    t.ip ≤ t.streamLength := by
  have hend : s.ip + n ≤ s.streamLength := decode_ok_le_length hf
  rw [State.streamLength, exec_stream h]
  obtain ⟨hip, -⟩ | ⟨a, -, -, rfl⟩ := exec_completes_or_faults h
  · rw [hip, ← decode_ok_length hf]
    exact hend
  · exact (Nat.le_add_right _ n).trans hend

/-- A faulting instruction moves nothing, so it is still the one at `ip`, and its data address the same. -/
theorem exec_fault_explained {i : Instr} {n : Nat} {s t : State} (hnone : s.fault = none) (hf : s.fetch = .ok (i, n))
    (h : exec i s = .next t) {a : Int} (ha : t.fault = some a) :
    inRange a = false ∧ ∃ i n, t.fetch = .ok (i, n) ∧ dataAddress t.acc i = some a := by
  obtain ⟨-, hkept⟩ | ⟨b, hb, hr, rfl⟩ := exec_completes_or_faults h
  · rw [hkept, hnone] at ha
    cases ha
  · cases ha
    exact ⟨hr, i, n, hf, hb⟩

/-! ## Values -/

theorem wellFormed_of_decode_ok {S : Octets} {off : Nat} {i : Instr} {n : Nat} (h : decode S off = .ok (i, n)) :
    i.wellFormed = true := by
  obtain ⟨-, -, -, hwf⟩ := decodedOperandIsTheShiftedWord S off i n h
  exact hwf

/-- Every instruction copies a held value, or makes a sign or a `LOADC` operand. -/
theorem exec_holds {P : Int → Prop} (hsmall : ∀ x : Nat, x ≤ 2 ^ 29 - 1 → P x) (hneg : P (-1)) {i : Instr} {s t : State}
    (hi : i.wellFormed = true) (hs : Holds P s) (h : exec i s = .next t) : Holds P t := by
  obtain ⟨hacc, hcells⟩ := hs
  obtain ⟨x, rfl, rfl⟩ | ⟨x, -, -, rfl⟩ | ⟨x, -, -, rfl⟩ | ⟨x, -, -, rfl⟩ | ⟨a, -, -, rfl⟩ := exec_next h
  case inl => exact ⟨hsmall x (of_decide_eq_true hi), hcells⟩ -- `LOADC`
  case inr.inl => -- `SGN`
    refine ⟨?_, hcells⟩
    show P (sign (readCell s.mem x))
    obtain hsign | hsign | hsign := sign_range (readCell s.mem x) <;> rw [hsign]
    · exact hneg
    · exact hsmall 0 (by omega)
    · exact hsmall 1 (by omega)
  case inr.inr.inl => exact ⟨hcells _, hcells⟩ -- `LOAD`
  case inr.inr.inr.inl => -- `STORE`
    refine ⟨hacc, fun b => ?_⟩
    show P (readCell (writeCell s.mem x s.acc) b)
    rw [readCell_writeCell]
    split
    · exact hacc
    · exact hcells b
  case inr.inr.inr.inr => exact ⟨hacc, hcells⟩ -- a memory fault

/-! ## The obligations -/

/-- Settles O38: a step begins neither halted nor faulted, so what the invariant says of a halt or a fault it has to say of this
step's own. -/
theorem everyStepKeepsTheInvariant : Obligations.EveryStepKeepsTheInvariant := by
  rintro s t ⟨hmem, -, -, -⟩ h
  obtain ⟨hs, hcases⟩ := step_next h
  obtain ⟨hhalted, hfault, hip⟩ := stopReason_none_iff.mp hs
  obtain ⟨sig, hf, rfl⟩ | ⟨i, n, hf, hexec⟩ := hcases
  case inl =>
    refine ⟨hmem, hip.le, fun _ => ⟨hip, sig, hf⟩, fun a ha => ?_⟩
    cases hfault.symm.trans ha
  case inr =>
    refine ⟨exec_mem_wf hmem hexec, exec_ip_le hf hexec, fun ht => ?_, fun a ha => exec_fault_explained hfault hf hexec ha⟩
    simp [exec_halted hexec, hhalted] at ht

/-- Settles O37. -/
theorem launchSatisfiesTheInvariant : Obligations.LaunchSatisfiesTheInvariant := by
  intro S P s h
  obtain ⟨hP, rfl⟩ := launch_ok h
  exact invariant_of_start (preseeded_wf hP) rfl rfl rfl

/-- Settles O36. -/
theorem resetSatisfiesTheInvariant : Obligations.ResetSatisfiesTheInvariant :=
  invariant_of_start reset_mem_wf rfl rfl rfl

/-- Settles O39. -/
theorem stepMakesNoOtherValues : Obligations.StepMakesNoOtherValues := by
  intro P hsmall hneg s t hs h
  obtain ⟨-, ⟨sig, -, rfl⟩ | ⟨i, n, hf, hexec⟩⟩ := step_next h
  · exact hs
  · exact exec_holds hsmall hneg (wellFormed_of_decode_ok hf) hs hexec

end Sys2Proof.Machine

/-!
Runs: what holds along a run, how far it gets, how it ends (R88 to R92), and the run of an encoded instruction list (R94).
-/

namespace Sys2Proof.Machine

/-! ## Along a run -/

/-- What every step keeps, every run keeps. -/
theorem run_keeps {P : State → Prop} (hstep : ∀ s t, P s → step s = .next t → P t) {s : State} (hs : P s) (k : Nat) :
    P (run k s) := by
  induction k generalizing s with
  | zero => exact hs
  | succ k ih =>
    cases hterminal : s.terminal with
    | true => rwa [run_of_terminal hterminal]
    | false =>
      obtain ⟨t, ht⟩ := step_isNext hterminal
      rw [run_of_next ht]
      exact ih (hstep s t hs ht)

theorem run_stream (k : Nat) (s : State) : (run k s).stream = s.stream :=
  run_keeps (P := fun t => t.stream = s.stream) (fun _ _ ht h => (step_stream h).trans ht) rfl k

theorem run_streamLength (k : Nat) (s : State) : (run k s).streamLength = s.streamLength :=
  congrArg List.length (run_stream k s)

theorem run_invariant {s : State} (hs : Invariant s) (k : Nat) : Invariant (run k s) :=
  run_keeps everyStepKeepsTheInvariant hs k

/-! ## Progress -/

/-- A step ends the run or moves `ip` on. -/
theorem step_terminal_or_advances {s t : State} (h : step s = .next t) : t.terminal = true ∨ s.ip < t.ip := by
  obtain ⟨sig, -, rfl⟩ | ⟨i, n, hf, -, ⟨hip, -⟩ | ⟨a, -, -, rfl⟩⟩ := step_halts_completes_or_faults h
  · exact .inl (terminal_of_halted rfl)
  · have hpos : 0 < n := decode_ok_length hf ▸ opcode_length_pos i.opcode
    exact .inr (by omega)
  · exact .inl (terminal_of_fault rfl)

/-- After `k` steps the run is over or `ip` has moved on by at least `k`. -/
theorem run_terminal_or_advances (k : Nat) (s : State) : (run k s).terminal = true ∨ s.ip + k ≤ (run k s).ip := by
  induction k generalizing s with
  | zero => exact .inr le_rfl
  | succ k ih =>
    cases hs : s.terminal with
    | true =>
      rw [run_of_terminal hs]
      exact .inl hs
    | false =>
      obtain ⟨t, ht⟩ := step_isNext hs
      rw [run_of_next ht]
      obtain hterminal | hadvance := step_terminal_or_advances ht
      · rw [run_of_terminal hterminal]
        exact .inl hterminal
      · exact (ih t).imp_right fun hip => by omega

/-- `L` steps are always enough (R92). -/
theorem runToEnd_terminal (s : State) : (runToEnd s).terminal = true := by
  rw [runToEnd]
  refine (run_terminal_or_advances s.streamLength s).elim id fun hip => terminal_of_streamLength_le_ip ?_
  rw [run_streamLength]
  omega

theorem run_of_streamLength_le {s : State} {k : Nat} (h : s.streamLength ≤ k) : run k s = runToEnd s := by
  obtain ⟨d, rfl⟩ := Nat.exists_eq_add_of_le h
  rw [run_add]
  exact run_of_terminal (runToEnd_terminal s) d

/-- Where a run has ended, after however many steps, there the whole run ends. -/
theorem runToEnd_of_run_terminal {s : State} {k : Nat} (h : (run k s).terminal = true) : runToEnd s = run k s :=
  calc runToEnd s
      = run (k + s.streamLength) s := (run_of_streamLength_le (Nat.le_add_left ..)).symm
    _ = run k s := by rw [run_add, run_of_terminal h]

/-! ## The ends of a run -/

/-- A terminal state of a run is one of the three ends; its invariant keeps them apart, since nothing decodes where the run halted
and an instruction does where it faulted. -/
theorem ended_of_terminal {s : State} (hs : Invariant s) (hterminal : s.terminal = true) :
    s.endedByExhaustion ∨ s.endedBySilentHalt ∨ s.endedByMemoryFault := by
  obtain ⟨-, hip, hhalt, hfault⟩ := hs
  cases hh : s.halted with
  | true =>
    obtain ⟨hlt, sig, hsig⟩ := hhalt hh
    cases hf : s.fault with
    | none => exact .inr (.inl ⟨hh, hf, hlt⟩)
    | some a =>
      obtain ⟨-, i, n, hok, -⟩ := hfault a hf
      cases hsig.symm.trans hok
  | false =>
    cases hf : s.fault with
    | none =>
      have hend : ¬ s.ip < s.streamLength := fun hlt => by simp [terminal_false_iff.mpr ⟨hh, hf, hlt⟩] at hterminal
      exact .inl ⟨hh, hf, by omega⟩
    | some a =>
      obtain ⟨-, i, n, hok, -⟩ := hfault a hf
      exact .inr (.inr ⟨hh, by simp [hf], ip_lt_of_fetch_ok hok⟩)

/-! ## Instruction lists -/

theorem encode_length (i : Instr) : (encode i).length = i.opcode.length := opcode_encode_length ..

theorem encodeAll_cons (i : Instr) (is : List Instr) : encodeAll (i :: is) = encode i ++ encodeAll is := List.flatMap_cons

theorem execAll_cons {i : Instr} {s t : State} (h : exec i s = .next t) (is : List Instr) :
    execAll (i :: is) s = if t.fault.isSome then t else execAll is t := by
  simp only [execAll, h]

/-- A list executed to its end has moved `ip` over its encoding. -/
theorem execAll_ip {is : List Instr} {s : State} (h : (execAll is s).fault = none) :
    (execAll is s).ip = s.ip + (encodeAll is).length := by
  induction is generalizing s with
  | nil => rfl
  | cons i is ih =>
    obtain ⟨t, ht⟩ := exec_isNext i s
    rw [execAll_cons ht] at h ⊢
    split at h
    · next hfault => simp [h] at hfault
    · next hfault =>
      rw [if_neg hfault, ih h, encodeAll_cons, List.length_append, encode_length]
      obtain ⟨hip, -⟩ | ⟨a, -, -, rfl⟩ := exec_completes_or_faults ht
      · omega
      · exact absurd rfl hfault

theorem execAll_halted (is : List Instr) (s : State) : (execAll is s).halted = s.halted := by
  induction is generalizing s with
  | nil => rfl
  | cons i is ih =>
    obtain ⟨t, ht⟩ := exec_isNext i s
    rw [execAll_cons ht]
    split
    · exact exec_halted ht
    · exact (ih t).trans (exec_halted ht)

/-- The fetch at an encoded instruction, wherever it stands in the stream. -/
theorem fetch_encode {i : Instr} {before after : Octets} {s : State} (hi : i.wellFormed = true)
    (hstream : s.stream = before ++ encode i ++ after) (hip : s.ip = before.length) :
    s.fetch = .ok (i, i.opcode.length) := by
  obtain ⟨-, hdecode⟩ := encodeThenDecodeGivesTheInstruction i before after hi
  rw [State.fetch, hstream, hip, hdecode]

/-- Encoder, decoder and sequencer agree, instruction by instruction. -/
theorem run_eq_execAll {is : List Instr} {before after : Octets} {s : State} (his : ∀ i ∈ is, i.wellFormed = true)
    (hstream : s.stream = before ++ encodeAll is ++ after) (hip : s.ip = before.length) (hhalted : s.halted = false)
    (hfault : s.fault = none) : run is.length s = execAll is s := by
  induction is generalizing before s with
  | nil => rfl
  | cons i is ih =>
    obtain ⟨hi, his⟩ := List.forall_mem_cons.mp his
    have hrest : before ++ encodeAll (i :: is) ++ after = before ++ encode i ++ (encodeAll is ++ after) := by
      simp [encodeAll_cons]
    have hf := fetch_encode hi (hstream.trans hrest) hip
    obtain ⟨t, ht⟩ := exec_isNext i s
    have hstep : step s = .next t := (step_of_fetch_ok (stopReason_none_of_fetch_ok hhalted hfault hf) hf).trans ht
    rw [List.length_cons, run_of_next hstep, execAll_cons ht]
    obtain ⟨htip, htfault⟩ | ⟨a, -, -, rfl⟩ := exec_completes_or_faults ht
    · have htnone : t.fault = none := htfault.trans hfault
      rw [htnone]
      refine ih (before := before ++ encode i) his ?_ ?_ ((exec_halted ht).trans hhalted) htnone
      · rw [exec_stream ht, hstream, hrest, List.append_assoc (before ++ encode i)]
      · rw [htip, hip, List.length_append, encode_length]
    · exact run_of_terminal (terminal_of_fault rfl) _

/-! ## The obligations -/

/-- Settles O41. -/
theorem terminalStatesAreAbsorbing : Obligations.TerminalStatesAreAbsorbing :=
  fun _ k h => run_of_terminal h k

/-- Settles O42. -/
theorem everyRunEndsWithinStreamLengthSteps : Obligations.EveryRunEndsWithinStreamLengthSteps :=
  fun s => ⟨runToEnd_terminal s, fun _ => run_of_streamLength_le⟩

/-- Settles O43: the end of a run is terminal and satisfies the invariant. -/
theorem runsEndInThreeWays : Obligations.RunsEndInThreeWays := by
  intro S P s h
  refine ⟨ended_of_terminal (run_invariant (launchSatisfiesTheInvariant S P s h) _) (runToEnd_terminal s), fun hS => ?empty⟩
  obtain ⟨-, rfl⟩ := launch_ok h
  subst hS
  exact ⟨terminal_of_streamLength_le_ip le_rfl, rfl⟩

/-- Settles O44. -/
theorem offsetsRiseAlongARun : Obligations.OffsetsRiseAlongARun := by
  intro s j k hjk hk
  obtain ⟨d, rfl⟩ := Nat.exists_eq_add_of_lt hjk
  rw [Nat.add_assoc, run_add] at hk ⊢
  refine ⟨?running, ?rises⟩
  case running =>
    by_contra hj
    rw [run_of_terminal (Bool.eq_true_of_not_eq_false hj)] at hk
    exact hj hk
  case rises =>
    obtain hterminal | hip := run_terminal_or_advances (d + 1) (run j s)
    · cases hterminal.symm.trans hk
    · omega

/-- Settles O45. -/
theorem runExecutesTheEncodedInstructions : Obligations.RunExecutesTheEncodedInstructions :=
  fun _ _ _ _ => run_eq_execAll

end Sys2Proof.Machine

/-!
The finite realisation (R22, R27): values that fit are kept, so with wide enough cells and instruction pointer each of its steps is
the core's.
-/

namespace Sys2Proof.Machine

/-! ## Values that fit -/

theorem fitsCell_iff {width : Nat} {v : Int} : fitsCell width v = true ↔ -2 ^ (width - 1) ≤ v ∧ v < 2 ^ (width - 1) := by
  simp [fitsCell]

/-- Two's complement keeps what fits. -/
theorem wrapCell_of_fits {width : Nat} {v : Int} (hwidth : 0 < width) (h : fitsCell width v = true) : wrapCell width v = v := by
  obtain ⟨hlow, hhigh⟩ := fitsCell_iff.mp h
  exact BitVec.toInt_ofInt_eq_self hwidth hlow hhigh

theorem two_pow_29_le {cellWidth : Nat} (hcell : 30 ≤ cellWidth) : (2 : Int) ^ 29 ≤ 2 ^ (cellWidth - 1) :=
  pow_le_pow_right₀ (by norm_num) (by omega)

/-- Every `LOADC` operand fits, and so do the signs 0 and 1 (R22). -/
theorem fitsCell_natCast {cellWidth x : Nat} (hcell : 30 ≤ cellWidth) (hx : x ≤ 2 ^ 29 - 1) : fitsCell cellWidth x = true := by
  have := two_pow_29_le hcell
  exact fitsCell_iff.mpr (by omega)

theorem fitsCell_neg_one {cellWidth : Nat} (hcell : 30 ≤ cellWidth) : fitsCell cellWidth (-1) = true := by
  have := two_pow_29_le hcell
  exact fitsCell_iff.mpr (by omega)

theorem fitsCell_sign {cellWidth : Nat} (hcell : 30 ≤ cellWidth) (v : Int) : fitsCell cellWidth (sign v) = true := by
  obtain hsign | hsign | hsign := sign_range v <;> rw [hsign]
  · exact fitsCell_neg_one hcell
  · exact fitsCell_natCast (x := 0) hcell (by omega)
  · exact fitsCell_natCast (x := 1) hcell (by omega)

/-- One more bit holds the sum of a cell's value and an operand (R22). -/
theorem fitsCell_accAddress {cellWidth x : Nat} {acc : Int} (hcell : 30 ≤ cellWidth) (hacc : fitsCell cellWidth acc = true)
    (hx : x ≤ 2 ^ 29 - 1) : fitsCell (cellWidth + 1) (accAddress acc x) = true := by
  obtain ⟨hlow, hhigh⟩ := fitsCell_iff.mp hacc
  have hbound := two_pow_29_le hcell
  have hdouble : (2 : Int) ^ (cellWidth + 1 - 1) = 2 * 2 ^ (cellWidth - 1) := by
    rw [← pow_succ']
    congr 1
    omega
  rw [fitsCell_iff, hdouble, accAddress]
  omega

/-! ## Steps of the finite realisation -/

/-- An instruction pointer that can hold the advanced offset advances as the core's. -/
theorem completeFinite_eq {ipWidth : Nat} {op : Opcode} {s : State} {r : Except Signal State}
    (hip : ∀ t, r = .ok t → t.ip + op.length < 2 ^ ipWidth) : completeFinite ipWidth op s r = complete op s r := by
  cases r with
  | ok t => simp only [completeFinite, complete, State.advance, Nat.mod_eq_of_lt (hip t rfl)]
  | error sig => rfl

/-- On values that fit, an instruction that ends within reach of the instruction pointer does what the core's does. -/
theorem execFinite_eq_exec {cellWidth ipWidth : Nat} {i : Instr} {s : State} (hcell : 30 ≤ cellWidth)
    (hi : i.wellFormed = true) (hs : Holds (fun v => fitsCell cellWidth v = true) s)
    (hip : s.ip + i.opcode.length < 2 ^ ipWidth) : execFinite cellWidth ipWidth i s = exec i s := by
  obtain ⟨hacc, hcells⟩ := hs
  have hwrap : ∀ {v : Int}, fitsCell cellWidth v = true → wrapCell cellWidth v = v := wrapCell_of_fits (by omega)
  cases i with
  | loadc x =>
    have hx : fitsCell cellWidth x = true := fitsCell_natCast hcell (of_decide_eq_true hi)
    rw [execFinite, exec, execLoadc, hwrap hx, completeFinite_eq fun t ht => ?_]
    cases ht
    exact hip
  | sgn x =>
    simp only [execFinite, exec, execSgn, hwrap (fitsCell_sign hcell _)]
    refine completeFinite_eq fun t ht => ?_
    obtain ⟨v, -, rfl⟩ := map_ok ht
    exact hip
  | load x =>
    have hx : x ≤ 31 := of_decide_eq_true hi
    have haddr := wrapCell_of_fits (Nat.succ_pos _) (fitsCell_accAddress (x := x) hcell hacc (by omega))
    rw [execFinite, exec, execLoad, haddr]
    cases hread : memRead s.mem (accAddress s.acc x) with
    | ok v =>
      obtain ⟨-, rfl⟩ := memRead_ok hread
      simp only [Except.map, hwrap (hcells _)]
      refine completeFinite_eq fun t ht => ?_
      cases ht
      exact hip
    | error sig => rfl
  | store x =>
    rw [execFinite, exec, execStore, hwrap hacc, completeFinite_eq fun t ht => ?_]
    obtain ⟨m, -, rfl⟩ := map_ok ht
    exact hip

theorem stepFinite_eq_step {cellWidth ipWidth : Nat} {s : State} (hcell : 30 ≤ cellWidth)
    (hlength : s.streamLength < 2 ^ ipWidth) (hs : Holds (fun v => fitsCell cellWidth v = true) s) :
    stepFinite cellWidth ipWidth s = step s := by
  unfold stepFinite step
  cases s.stopReason with
  | some r => rfl
  | none =>
    cases hf : s.fetch with
    | error sig => rfl
    | ok fetched =>
      obtain ⟨i, n⟩ := fetched
      have hend : s.ip + n ≤ s.streamLength := decode_ok_le_length hf
      rw [decode_ok_length hf] at hend
      exact execFinite_eq_exec hcell (wellFormed_of_decode_ok hf) hs (by omega)

/-- The core's steps keep the values in range, so the two runs never part. -/
theorem runFinite_eq_run {cellWidth ipWidth : Nat} (hcell : 30 ≤ cellWidth) (k : Nat) {s : State}
    (hlength : s.streamLength < 2 ^ ipWidth) (hs : Holds (fun v => fitsCell cellWidth v = true) s) :
    runFinite cellWidth ipWidth k s = run k s := by
  induction k generalizing s with
  | zero => rfl
  | succ k ih =>
    rw [runFinite, stepFinite_eq_step hcell hlength hs, run]
    cases hstep : step s with
    | next t =>
      refine ih ?_ ?_
      · rwa [State.streamLength, step_stream hstep]
      · exact stepMakesNoOtherValues _ (fun _ => fitsCell_natCast hcell) (fitsCell_neg_one hcell) s t hs hstep
    | fault r => rfl
    | refused r => rfl

/-! ## The obligation -/

/-- A launch with a pre-seed that fits holds only values that fit. -/
theorem launch_holds_fits {cellWidth : Nat} (hcell : 30 ≤ cellWidth) {S : Octets} {P : List (Int × Int)} {s : State}
    (hP : ∀ c ∈ P, fitsCell cellWidth c.2 = true) (h : launch S P = .ok s) :
    Holds (fun v => fitsCell cellWidth v = true) s := by
  obtain ⟨-, rfl⟩ := launch_ok h
  have hzero : fitsCell cellWidth 0 = true := fitsCell_natCast (x := 0) hcell (by omega)
  refine ⟨hzero, fun a => ?_⟩
  obtain ⟨c, hc, -, hread⟩ | ⟨-, hread⟩ := readCell_preseeded P a
  · exact hread ▸ hP c hc
  · exact hread ▸ hzero

/-- Settles O46. -/
theorem finiteRealisationIsExact : Obligations.FiniteRealisationIsExact := by
  intro cellWidth ipWidth S P s hcell hS hP h
  constructor
  case left =>
    have hkept : P.map (fun c => (c.1, wrapCell cellWidth c.2)) = P :=
      (List.map_congr_left fun c hc => by rw [wrapCell_of_fits (by omega) (hP c hc), id]).trans P.map_id
    rw [launchFinite, hkept, h]
  case right =>
    have hlength : s.streamLength < 2 ^ ipWidth := by
      have hpos := Nat.two_pow_pos ipWidth
      obtain ⟨-, rfl⟩ := launch_ok h
      show S.length < _
      omega
    exact fun k => runFinite_eq_run hcell k hlength (launch_holds_fits hcell hP h)

end Sys2Proof.Machine

/-!
The host before and after a run: launch with a pre-seed (R118), memory dump (R51) and fault report (R52).
-/

namespace Sys2Proof.Machine

/-! ## Launch -/

theorem launch_of_inRange (S : Octets) {P : List (Int × Int)} (hP : ∀ c ∈ P, inRange c.1 = true) :
    launch S P =
      .ok { mem := preseeded P, acc := 0, ip := 0, halted := false, fault := none, stream := S } :=
  if_pos (List.all_eq_true.mpr hP)

theorem launch_of_outOfRange (S : Octets) {P : List (Int × Int)} {c : Int × Int} (hc : c ∈ P) (hr : inRange c.1 = false) :
    launch S P = .error .launchPreseed := by
  refine if_neg fun hall => ?_
  simp [List.all_eq_true.mp hall c hc] at hr

/-- Where no address is named twice, each named cell holds its value. -/
theorem readCell_preseeded_of_mem {P : List (Int × Int)} (hP : ∀ c ∈ P, inRange c.1 = true) (hnodup : (P.map Prod.fst).Nodup)
    {c : Int × Int} (hc : c ∈ P) : readCell (preseeded P) c.1.toNat = c.2 := by
  have hread : memRead (preseeded P) c.1 = .ok (readCell (preseeded P) c.1.toNat) := memRead_of_inRange (hP c hc)
  obtain ⟨v, hv, hread'⟩ | ⟨hnone, -⟩ := memRead_preseeded hP (hP c hc)
  · obtain rfl : v = c.2 := congrArg Prod.snd (List.inj_on_of_nodup_map hnodup hv hc rfl)
    exact Except.ok.inj (hread.symm.trans hread')
  · exact absurd rfl (hnone c hc)

theorem readCell_reset_of_four_le {a : Nat} (ha : 4 ≤ a) : readCell State.reset.mem a = 0 := by
  obtain ⟨c, hc, rfl, -⟩ | ⟨-, hread⟩ := readCell_preseeded Config.preseed a
  · have hnamed : ∀ c ∈ Config.preseed, c.1.toNat < 4 := by decide
    exact absurd (hnamed c hc) (by omega)
  · exact hread

/-! ## Dump -/

theorem dumpCells_of_inRange (m : Memory) {first last : Int} (hfirst : 0 ≤ first) (hle : first ≤ last) (hlast : last ≤ 1023) :
    dumpCells m first last =
      .ok ((List.range (last - first + 1).toNat).map fun k : Nat => (first + k, readCell m (first + k).toNat)) := by
  rw [dumpCells, if_neg (by omega), if_neg (by omega)]

theorem terminal_of_ended {s : State} (h : s.endedByExhaustion ∨ s.endedBySilentHalt) :
    s.fault = none ∧ s.terminal = true := by
  obtain ⟨-, hfault, hip⟩ | ⟨hhalted, hfault, -⟩ := h
  · exact ⟨hfault, terminal_of_streamLength_le_ip hip.ge⟩
  · exact ⟨hfault, terminal_of_halted hhalted⟩

/-! ## The obligations -/

/-- Settles O49. -/
theorem launchAppliesThePreseed : Obligations.LaunchAppliesThePreseed := by
  refine fun S P => ⟨fun ⟨c, hc, hout⟩ => launch_of_outOfRange S hc (inRange_false_iff.mpr hout), fun h hnodup => ?_⟩
  have hP : ∀ c ∈ P, inRange c.1 = true := fun c hc => inRange_iff.mpr (h c hc)
  exact ⟨_, launch_of_inRange S hP, fun c => readCell_preseeded_of_mem hP hnodup⟩

/-- Settles O50. -/
theorem resetHasTheReferencePreseed : Obligations.ResetHasTheReferencePreseed :=
  ⟨launch_of_inRange [] (by decide), ⟨rfl, rfl, rfl, rfl, fun _ => readCell_reset_of_four_le⟩, rfl⟩

/-- Settles O51. -/
theorem dumpListsTheRange : Obligations.DumpListsTheRange := by
  refine fun m first last => ⟨fun h => if_pos h, fun hle hout => ?refused, fun hfirst hle hlast => ?listed⟩
  case refused => rw [dumpCells, if_neg hle.not_gt, if_pos hout]
  case listed =>
    refine ⟨_, dumpCells_of_inRange m hfirst hle hlast, ?_, fun k a v hk => ?_⟩
    · rw [List.length_map, List.length_range]
      omega
    · rw [List.getElem?_map, Option.map_eq_some_iff] at hk
      obtain ⟨j, hj, hrecord⟩ := hk
      obtain ⟨hlt, rfl⟩ := List.getElem?_eq_some_iff.mp hj
      rw [List.getElem_range] at hrecord
      cases hrecord
      exact ⟨rfl, rfl⟩

/-- Settles O52. -/
theorem hostReceivesDumpOrFaultReport : Obligations.HostReceivesDumpOrFaultReport := by
  refine fun s first last => ⟨fun a ha => ?faulted, fun hended => ?ended⟩
  case faulted => simp only [report, ha]
  case ended =>
    obtain ⟨hfault, hterminal⟩ := terminal_of_ended hended
    simp only [report, hfault, hterminal, if_true]

end Sys2Proof.Machine

/-!
Source lines: what a line's tokens assemble to (R74), which tokens are integers (D11), and that letter case never matters (D14).
-/

namespace Sys2Proof.Machine

/-! ## Splitting a line -/

theorem ne_semicolon_of_isWhitespace {c : Char} (h : isWhitespace c = true) : c ≠ ';' := by
  rintro rfl
  exact absurd h (by decide)

/-- A comment, if there is one, is cut off. -/
theorem stripComment_append {t rest : Text} (ht : ∀ c ∈ t, c ≠ ';') (hrest : rest = [] ∨ ∃ comment, rest = ';' :: comment) :
    stripComment (t ++ rest) = t := by
  obtain rfl | ⟨comment, rfl⟩ := hrest
  · rw [List.append_nil, stripComment_eq_self t ht]
  · exact stripComment_semicolon t comment ht

theorem tokens_of_whitespace {t : Text} (h : ∀ c ∈ t, isWhitespace c = true) : tokens t = [] := by
  have hskip := tokens_whitespace t [] h
  rwa [List.append_nil] at hskip

/-! ## What the tokens of a line assemble to -/

section

variable {line m operand : Text} {op : Opcode}

theorem assembleLine_of_no_token (h : tokens (stripComment line) = []) : assembleLine line = .ok none := by
  simp only [assembleLine, h]

theorem assembleLine_of_token_count (h0 : (tokens (stripComment line)).length ≠ 0)
    (h2 : (tokens (stripComment line)).length ≠ 2) : assembleLine line = .error .parseError := by
  unfold assembleLine
  split
  · next h => simp [h] at h0
  · next h => simp [h] at h2
  · rfl

theorem assembleLine_of_unknown (h : tokens (stripComment line) = [m, operand])
    (hm : Opcode.ofMnemonic (m.map upperCase) = none) : assembleLine line = .error .unknownMnemonicError := by
  simp only [assembleLine, h, hm]

theorem assembleLine_of_no_integer (h : tokens (stripComment line) = [m, operand])
    (hm : Opcode.ofMnemonic (m.map upperCase) = some op) (hx : parseInteger operand = none) :
    assembleLine line = .error .parseError := by
  simp only [assembleLine, h, hm, hx]

theorem assembleLine_of_integer (h : tokens (stripComment line) = [m, operand])
    (hm : Opcode.ofMnemonic (m.map upperCase) = some op) {x : Int} (hx : parseInteger operand = some x) :
    assembleLine line = .ok (some (op, x)) := by
  simp only [assembleLine, h, hm, hx]

end

/-! ## Integer tokens -/

theorem isDigit_iff {c : Char} : c.isDigit = true ↔ 48 ≤ c.toNat ∧ c.toNat ≤ 57 := by
  simp [Char.isDigit, UInt32.le_iff_toNat_le]

/-- The decimal digits, one by one. -/
theorem isDigit_iff_mem {c : Char} : c.isDigit = true ↔ c ∈ ['0', '1', '2', '3', '4', '5', '6', '7', '8', '9'] := by
  constructor
  · intro h
    obtain ⟨hlow, hhigh⟩ := isDigit_iff.mp h
    have hall : ∀ d < 10, Char.ofNat (48 + d) ∈ ['0', '1', '2', '3', '4', '5', '6', '7', '8', '9'] := by decide
    have hc := hall (c.toNat - 48) (by omega)
    rwa [Nat.add_sub_cancel' hlow, Char.ofNat_toNat] at hc
  · have hall : ∀ d ∈ ['0', '1', '2', '3', '4', '5', '6', '7', '8', '9'], d.isDigit = true :=
      List.all_eq_true.mp (by decide)
    exact hall c

/-- Unsigned integer tokens are the non-empty sequences of digits, read in decimal. -/
theorem parseDigits_eq_some {t : Text} {n : Nat} :
    parseDigits t = some n ↔ t ≠ [] ∧ (∀ c ∈ t, c.isDigit = true) ∧ n = Nat.ofDigitChars 10 t 0 := by
  cases t with
  | nil => simp [parseDigits]
  | cons c t =>
    simp only [isDigit_iff, Nat.ofDigitChars_eq_foldl, parseDigits, digitsAfter_eq_some, ne_eq, reduceCtorEq, not_false_eq_true,
      true_and]
    rfl

theorem parseDigits_toDigits (n : Nat) : parseDigits (Nat.toDigits 10 n) = some n :=
  parseDigits_eq_some.mpr ⟨Nat.toDigits_ne_nil, fun _ => Nat.isDigit_of_mem_toDigits (by decide) le_rfl,
    Nat.ofDigitChars_ten_toDigits.symm⟩

theorem parseInteger_plus (ds : Text) : parseInteger ('+' :: ds) = (parseDigits ds).map fun n : Nat => (n : Int) := rfl

theorem parseInteger_minus (ds : Text) : parseInteger ('-' :: ds) = (parseDigits ds).map fun n : Nat => -(n : Int) := rfl

/-- A token has a sign, or is read as digits. -/
theorem parseInteger_cases (t : Text) :
    (∃ ds, t = '+' :: ds) ∨ (∃ ds, t = '-' :: ds) ∨ parseInteger t = (parseDigits t).map fun n : Nat => (n : Int) := by
  unfold parseInteger
  split
  · next ds => exact .inl ⟨ds, rfl⟩
  · next ds => exact .inr (.inl ⟨ds, rfl⟩)
  · exact .inr (.inr rfl)

theorem parseInteger_of_unsigned {c : Char} {ds : Text} (hplus : c ≠ '+') (hminus : c ≠ '-') :
    parseInteger (c :: ds) = (parseDigits (c :: ds)).map fun n : Nat => (n : Int) := by
  obtain ⟨cs, h⟩ | ⟨cs, h⟩ | hunsigned := parseInteger_cases (c :: ds)
  · exact absurd (List.cons.inj h).1 hplus
  · exact absurd (List.cons.inj h).1 hminus
  · exact hunsigned

theorem parseInteger_of_parseDigits {t : Text} {n : Nat} (h : parseDigits t = some n) : parseInteger t = some (n : Int) := by
  obtain ⟨-, hdigits, -⟩ := parseDigits_eq_some.mp h
  obtain ⟨ds, rfl⟩ | ⟨ds, rfl⟩ | hunsigned := parseInteger_cases t
  · exact absurd (hdigits '+' List.mem_cons_self) (by decide)
  · exact absurd (hdigits '-' List.mem_cons_self) (by decide)
  · rw [hunsigned, h, Option.map_some]

/-- Everything the reading of an integer token can answer (D11). -/
theorem parseInteger_eq_some {t : Text} {x : Int} : parseInteger t = some x ↔
    ∃ (sign digits : Text) (n : Nat), t = sign ++ digits ∧ parseDigits digits = some n ∧
      ((sign = [] ∨ sign = ['+']) ∧ x = n ∨ sign = ['-'] ∧ x = -n) := by
  constructor
  · intro h
    obtain ⟨ds, rfl⟩ | ⟨ds, rfl⟩ | hunsigned := parseInteger_cases t
    · obtain ⟨n, hn, rfl⟩ := Option.map_eq_some_iff.mp h
      exact ⟨['+'], ds, n, rfl, hn, .inl ⟨.inr rfl, rfl⟩⟩
    · obtain ⟨n, hn, rfl⟩ := Option.map_eq_some_iff.mp h
      exact ⟨['-'], ds, n, rfl, hn, .inr ⟨rfl, rfl⟩⟩
    · obtain ⟨n, hn, rfl⟩ := Option.map_eq_some_iff.mp (hunsigned.symm.trans h)
      exact ⟨[], t, n, rfl, hn, .inl ⟨.inl rfl, rfl⟩⟩
  · rintro ⟨sign, digits, n, rfl, hn, ⟨rfl | rfl, rfl⟩ | ⟨rfl, rfl⟩⟩
    · exact parseInteger_of_parseDigits hn
    · rw [List.singleton_append, parseInteger_plus, hn, Option.map_some]
    · rw [List.singleton_append, parseInteger_minus, hn, Option.map_some]

/-! ## Letter case -/

/-- Folding makes letters of letters, so it neither makes nor takes a character below them. -/
theorem upperCase_eq_iff {c d : Char} (hd : d.toNat < 65) : upperCase c = d ↔ c = d := by
  obtain ⟨hlow, hhigh, hupper⟩ | ⟨-, hsame⟩ := upperCase_cases c
  · constructor
    · rintro rfl
      omega
    · rintro rfl
      omega
  · rw [hsame]

theorem upperCase_upperCase (c : Char) : upperCase (upperCase c) = upperCase c := by
  obtain ⟨hlow, hhigh, hupper⟩ | ⟨-, hsame⟩ := upperCase_cases c
  · obtain ⟨hlow', -, -⟩ | ⟨-, hsame⟩ := upperCase_cases (upperCase c)
    · omega
    · exact hsame
  · rw [hsame, hsame]

theorem isWhitespace_lt {c : Char} (h : isWhitespace c = true) : c.toNat < 65 := by
  simp only [isWhitespace, Bool.or_eq_true, Bool.and_eq_true, decide_eq_true_eq] at h
  omega

theorem isWhitespace_upperCase (c : Char) : isWhitespace (upperCase c) = isWhitespace c := by
  rw [Bool.eq_iff_iff]
  constructor
  · intro h
    have hc : c = upperCase c := (upperCase_eq_iff (isWhitespace_lt h)).mp rfl
    rwa [hc]
  · intro h
    have hc : upperCase c = c := (upperCase_eq_iff (isWhitespace_lt h)).mpr rfl
    rwa [hc]

theorem digitValue_upperCase (c : Char) : digitValue (upperCase c) = digitValue c := by
  obtain ⟨hlow, hhigh, hupper⟩ | ⟨-, hsame⟩ := upperCase_cases c
  · rw [digitValue, digitValue, if_neg (by omega), if_neg (by omega)]
  · rw [hsame]

theorem parseDigits_map_upperCase (t : Text) : parseDigits (t.map upperCase) = parseDigits t := by
  have hafter : ∀ (t : Text) (acc : Nat), digitsAfter acc (t.map upperCase) = digitsAfter acc t := by
    intro t
    induction t with
    | nil => exact fun _ => rfl
    | cons c t ih => simp [digitsAfter, digitValue_upperCase, ih]
  cases t with
  | nil => rfl
  | cons c t => exact hafter (c :: t) 0

theorem parseInteger_map_upperCase (t : Text) : parseInteger (t.map upperCase) = parseInteger t := by
  cases t with
  | nil => rfl
  | cons c t =>
    have hdigits := parseDigits_map_upperCase t
    by_cases hplus : c = '+'
    · subst hplus
      show parseInteger ('+' :: t.map upperCase) = _
      rw [parseInteger_plus, parseInteger_plus, hdigits]
    by_cases hminus : c = '-'
    · subst hminus
      show parseInteger ('-' :: t.map upperCase) = _
      rw [parseInteger_minus, parseInteger_minus, hdigits]
    have hplus' : upperCase c ≠ '+' := (upperCase_eq_iff (by decide)).not.mpr hplus
    have hminus' : upperCase c ≠ '-' := (upperCase_eq_iff (by decide)).not.mpr hminus
    rw [List.map_cons, parseInteger_of_unsigned hplus' hminus', parseInteger_of_unsigned hplus hminus, ← List.map_cons,
      parseDigits_map_upperCase]

theorem stripComment_map_upperCase (line : Text) : stripComment (line.map upperCase) = (stripComment line).map upperCase := by
  have hsemicolon : ∀ c, upperCase c = ';' ↔ c = ';' := fun c => upperCase_eq_iff (by decide)
  simp only [stripComment, List.takeWhile_map, Function.comp_def, ne_eq, hsemicolon]

theorem flushToken_map_upperCase (cur : Text) : flushToken (cur.map upperCase) = (flushToken cur).map (List.map upperCase) := by
  cases cur <;> rfl

theorem tokensAfter_map_upperCase (t cur : Text) :
    tokensAfter (cur.map upperCase) (t.map upperCase) = (tokensAfter cur t).map (List.map upperCase) := by
  induction t generalizing cur with
  | nil => exact flushToken_map_upperCase cur
  | cons c t ih =>
    simp only [List.map_cons, tokensAfter, isWhitespace_upperCase]
    split
    · rw [List.map_append, flushToken_map_upperCase, ← ih, List.map_nil]
    · rw [← ih, List.map_append, List.map_singleton]

theorem tokens_map_upperCase (t : Text) : tokens (t.map upperCase) = (tokens t).map (List.map upperCase) :=
  tokensAfter_map_upperCase t []

/-! ## The obligations -/

/-- Settles O53. -/
theorem blankAndCommentLinesGiveNothing : Obligations.BlankAndCommentLinesGiveNothing := by
  intro blank comment h
  have hkept : ∀ c ∈ blank, c ≠ ';' := fun c hc => ne_semicolon_of_isWhitespace (h c hc)
  constructor <;> apply assembleLine_of_no_token
  · rw [stripComment_eq_self blank hkept, tokens_of_whitespace h]
  · rw [stripComment_semicolon blank comment hkept, tokens_of_whitespace h]

/-- The tokens of a line as the statement spells it: its pieces, between whitespace and an optional comment. -/
theorem tokens_of_line {lead rest : Text} {pieces : List (Text × Text)} (hlead : ∀ c ∈ lead, isWhitespace c = true)
    (hrest : rest = [] ∨ ∃ comment, rest = ';' :: comment)
    (hpieces : ∀ p ∈ pieces, p.1 ≠ [] ∧ (∀ c ∈ p.1, isWhitespace c = false ∧ c ≠ ';') ∧ ∀ c ∈ p.2, isWhitespace c = true)
    (hlast : ∀ p ∈ pieces.dropLast, p.2 ≠ []) :
    tokens (stripComment (lead ++ pieces.flatMap (fun p => p.1 ++ p.2) ++ rest)) = pieces.map Prod.fst := by
  have hkept : ∀ c ∈ lead ++ pieces.flatMap (fun p => p.1 ++ p.2), c ≠ ';' := by
    intro c hc
    simp only [List.mem_append, List.mem_flatMap] at hc
    obtain hc | ⟨p, hp, hc⟩ := hc
    · exact ne_semicolon_of_isWhitespace (hlead c hc)
    · obtain ⟨-, htoken, hspace⟩ := hpieces p hp
      obtain hc | hc := hc
      · obtain ⟨-, hne⟩ := htoken c hc
        exact hne
      · exact ne_semicolon_of_isWhitespace (hspace c hc)
  rw [stripComment_append hkept hrest, tokens_whitespace _ _ hlead]
  refine tokens_pieces pieces (fun p hp => ?_) hlast
  obtain ⟨hne, htoken, hspace⟩ := hpieces p hp
  exact ⟨hne, fun c hc => (htoken c hc).1, hspace⟩

/-- Settles O54: the line's tokens are the pieces' tokens, and their number and the mnemonic choose the clause. -/
theorem instructionLinesAssemble : Obligations.InstructionLinesAssemble := by
  refine ⟨⟨rfl, rfl, rfl, rfl⟩, ?_⟩
  rintro space lead rest pieces rfl hlead hrest hpieces hlast
  simp only [← isWhitespace_iff, Bool.not_eq_true] at hlead hpieces
  have htokens := tokens_of_line hlead hrest hpieces hlast
  refine ⟨fun hnil => ?none, fun h0 h2 => ?count, fun m operand w w' hpair => ?pair⟩
  case none => exact assembleLine_of_no_token (by rw [htokens, hnil, List.map_nil])
  case count => exact assembleLine_of_token_count (by rwa [htokens, List.length_map]) (by rwa [htokens, List.length_map])
  case pair =>
    subst hpair
    have hupper : m.map upperCase = m.map Char.toUpper := List.map_congr_left fun c _ => upperCase_eq_toUpper c
    refine ⟨fun hm => assembleLine_of_unknown htokens (ofMnemonic_eq_none (by rwa [hupper])), fun op hm => ?_⟩
    have hop : Opcode.ofMnemonic (m.map upperCase) = some op := by rw [hupper, hm, ofMnemonic_mnemonic]
    exact ⟨assembleLine_of_no_integer htokens hop, fun x => assembleLine_of_integer htokens hop⟩

/-- Settles O55. -/
theorem integerTokensAreDecimal : Obligations.IntegerTokensAreDecimal := by
  refine ⟨fun token x => ?tokens, fun n => ?numerals⟩
  case tokens =>
    rw [parseInteger_eq_some]
    simp only [parseDigits_eq_some, isDigit_iff_mem, Nat.ofDigitChars_eq_foldl, and_assoc]
  case numerals =>
    have hn := parseDigits_toDigits n
    refine ⟨parseInteger_of_parseDigits hn, ?_, ?_⟩
    · rw [parseInteger_plus, hn, Option.map_some]
    · rw [parseInteger_minus, hn, Option.map_some]

/-- Settles O56: the folded line has the folded tokens, and neither the mnemonic nor the integer read from them differs. -/
theorem assemblyIgnoresLetterCase : Obligations.AssemblyIgnoresLetterCase := by
  intro line
  have hmnemonic : ∀ m : Text, (m.map upperCase).map upperCase = m.map upperCase := fun m => by
    simp [upperCase_upperCase]
  simp only [assembleLine, stripComment_map_upperCase, tokens_map_upperCase]
  match tokens (stripComment line) with
  | [] => rfl
  | [m] => rfl
  | [m, operand] => simp only [List.map_cons, List.map_nil, hmnemonic, parseInteger_map_upperCase]
  | _ :: _ :: _ :: _ => rfl

end Sys2Proof.Machine

/-!
Programs: what the assembler's outputs are made of (R75, R77), and the run of an assembled program (70_reset_and_hazards.md section
3), whose stream encodes well-formed instructions and nothing else.
-/

namespace Sys2Proof

/-- Whatever the encoder answers encodes a well-formed instruction: cutting the operand to its field changes no octet. -/
theorem encodeMnemonic_ok {m : Text} {x : Int} {e : Octets} (h : encodeMnemonic m x = .ok e) :
    ∃ i : Instr, i.wellFormed = true ∧ encode i = e := by
  unfold encodeMnemonic at h
  split at h
  · cases h
  · next op hop =>
    split at h <;> cases h
    refine ⟨op.instr (x.toNat % 2 ^ op.width), ?_, ?_⟩
    · exact (instr_wellFormed_iff ..).mpr (Nat.mod_lt _ (Nat.two_pow_pos _))
    · rw [encode, instr_opcode, instr_operand, opcode_encode_eq, Nat.mod_mod, ← opcode_encode_eq]

end Sys2Proof

namespace Sys2Proof.Machine

/-! ## Lines and programs -/

theorem assembleRecord_of_no_instruction {line : Text} (h : assembleLine line = .ok none) : assembleRecord line = .ok none := by
  simp only [assembleRecord, h]

theorem assembleRecord_of_instruction {line : Text} {op : Opcode} {x : Int} {e : Octets}
    (h : assembleLine line = .ok (some (op, x))) (he : encodeMnemonic op.mnemonic x = .ok e) :
    assembleRecord line = .ok (some (e, { mnemonic := op.mnemonic, operand := x, machineCode := machineCode e })) := by
  simp only [assembleRecord, h, he]

/-- A line fails by itself or in the encoder. -/
theorem assembleRecord_of_error {line : Text} {e : Signal} (h : assembleLine line = .error e ∨
    ∃ (op : Opcode) (x : Int), assembleLine line = .ok (some (op, x)) ∧ encodeMnemonic op.mnemonic x = .error e) :
    assembleRecord line = .error e := by
  obtain h | ⟨op, x, h, he⟩ := h
  · simp only [assembleRecord, h]
  · simp only [assembleRecord, h, he]

theorem assembleProgram_cons_of_none {line : Text} (h : assembleRecord line = .ok none) (lines : List Text) :
    assembleProgram (line :: lines) = assembleProgram lines := by
  simp only [assembleProgram, h]

theorem assembleProgram_cons_of_some {line : Text} {e : Octets} {r : TraceRecord} (h : assembleRecord line = .ok (some (e, r)))
    (lines : List Text) :
    assembleProgram (line :: lines) = (assembleProgram lines).map fun out => (e ++ out.1, r :: out.2) := by
  simp only [assembleProgram, h]
  cases assembleProgram lines <;> rfl

theorem assembleProgram_cons_of_error {line : Text} {e : Signal} (h : assembleRecord line = .error e) (lines : List Text) :
    assembleProgram (line :: lines) = .error e := by
  simp only [assembleProgram, h]

/-- After lines that assemble, the rest decides: it fails the whole, or its outputs follow theirs. -/
theorem assembleProgram_append {p : List Text} {S : Octets} {T : List TraceRecord} (hp : assembleProgram p = .ok (S, T))
    (q : List Text) : assembleProgram (p ++ q) = (assembleProgram q).map fun out => (S ++ out.1, T ++ out.2) := by
  induction p generalizing S T with
  | nil =>
    cases hp
    rw [List.nil_append]
    cases assembleProgram q <;> rfl
  | cons line p ih =>
    obtain ⟨hr, hrest⟩ | ⟨e, r, S', T', hr, hrest, rfl, rfl⟩ := assembleProgram_cons hp
    · rw [List.cons_append, assembleProgram_cons_of_none hr, ih hrest]
    · rw [List.cons_append, assembleProgram_cons_of_some hr, ih hrest]
      cases assembleProgram q with
      | ok out => simp [Except.map]
      | error e => rfl

/-- The trace has one record per encoding of the stream (R77). -/
theorem assembleProgram_trace {lines : List Text} {S : Octets} {T : List TraceRecord} (h : assembleProgram lines = .ok (S, T)) :
    ∃ es : List Octets, S = es.flatten ∧
      List.Forall₂ (fun r e => encodeMnemonic r.mnemonic r.operand = .ok e ∧ r.machineCode = machineCode e) T es := by
  induction lines generalizing S T with
  | nil =>
    cases h
    exact ⟨[], rfl, .nil⟩
  | cons line lines ih =>
    obtain ⟨-, hrest⟩ | ⟨e, r, S', T', hr, hrest, rfl, rfl⟩ := assembleProgram_cons h
    · exact ih hrest
    · obtain ⟨es, rfl, hes⟩ := ih hrest
      obtain ⟨-, -, he, hcode⟩ := assembleRecord_some hr
      exact ⟨e :: es, rfl, .cons ⟨he, hcode⟩ hes⟩

/-! ## Hexadecimal -/

theorem hexDigit_eq {d : Nat} (hd : d < 16) : hexDigit d = "0123456789ABCDEF".toList.getD d '0' := by
  have hall : ∀ d < 16, hexDigit d = "0123456789ABCDEF".toList.getD d '0' := by decide
  exact hall d hd

theorem machineCode_eq_intercalate (e : Octets) : machineCode e = List.intercalate [' '] (e.map hexOctet) := by
  induction e with
  | nil => rfl
  | cons b e ih =>
    cases e with
    | nil => simp [machineCode]
    | cons c e => simp [machineCode, ih, List.intercalate_cons_cons]

/-! ## The run of an assembled program -/

/-- An assembled stream is the encoding of a list of well-formed instructions. -/
theorem assembleProgram_encodeAll {lines : List Text} {S : Octets} {T : List TraceRecord}
    (h : assembleProgram lines = .ok (S, T)) : ∃ is : List Instr, (∀ i ∈ is, i.wellFormed = true) ∧ S = encodeAll is := by
  obtain ⟨es, rfl, hes⟩ := assembleProgram_trace h
  clear h
  induction hes with
  | nil => exact ⟨[], by simp, rfl⟩
  | cons hr _ ih =>
    obtain ⟨he, -⟩ := hr
    obtain ⟨i, hi, rfl⟩ := encodeMnemonic_ok he
    obtain ⟨is, his, hflat⟩ := ih
    exact ⟨i :: is, List.forall_mem_cons.mpr ⟨hi, his⟩, by rw [List.flatten_cons, hflat, encodeAll_cons]⟩

/-- A run that starts at the encoding of a list, with nothing after it, is over once the list has been executed. -/
theorem runToEnd_eq_execAll {is : List Instr} {s : State} (his : ∀ i ∈ is, i.wellFormed = true) (hstream : s.stream = encodeAll is)
    (hip : s.ip = 0) (hhalted : s.halted = false) (hfault : s.fault = none) : runToEnd s = execAll is s := by
  have hrun : run is.length s = execAll is s :=
    run_eq_execAll (before := []) (after := []) his (by simpa using hstream) hip hhalted hfault
  have hover : (run is.length s).terminal = true := by
    cases hend : (run is.length s).fault with
    | some a => exact terminal_of_fault hend
    | none =>
      apply terminal_of_streamLength_le_ip
      rw [hrun] at hend
      rw [run_streamLength, hrun, execAll_ip hend, hip, State.streamLength, hstream, Nat.zero_add]
  rw [runToEnd_of_run_terminal hover, hrun]

/-- The run of an assembled program only executes instructions, and none of them halts. -/
theorem runToEnd_halted_of_assembled {lines : List Text} {S : Octets} {T : List TraceRecord} {P : List (Int × Int)} {s : State}
    (hS : assembleProgram lines = .ok (S, T)) (h : launch S P = .ok s) : (runToEnd s).halted = false := by
  obtain ⟨is, his, rfl⟩ := assembleProgram_encodeAll hS
  obtain ⟨-, rfl⟩ := launch_ok h
  rw [runToEnd_eq_execAll his rfl rfl rfl rfl, execAll_halted]

/-- A step whose access is in range records no fault. -/
theorem step_fault_of_accessInRange {s t : State} (hs : s.accessInRange) (h : step s = .next t) : t.fault = s.fault := by
  obtain ⟨sig, -, rfl⟩ | ⟨i, n, hf, -, ⟨-, hkept⟩ | ⟨a, ha, hr, -⟩⟩ := step_halts_completes_or_faults h
  · rfl
  · exact hkept
  · have hin : inRange a = true := hs (step_enabled_iff.mp ⟨t, h⟩) i n hf a ha
    cases hr.symm.trans hin

theorem run_fault_of_accessInRange {s : State} (hs : ∀ k, (run k s).accessInRange) (k : Nat) : (run k s).fault = s.fault := by
  induction k with
  | zero => rfl
  | succ k ih =>
    rw [run_add k 1, ← ih]
    cases hterminal : (run k s).terminal with
    | true => rw [run_of_terminal hterminal]
    | false =>
      obtain ⟨t, ht⟩ := step_isNext hterminal
      rw [run_of_next ht, run]
      exact step_fault_of_accessInRange (hs k) ht

/-! ## The obligations -/

/-- Settles O57. -/
theorem programsAssembleInOrderOrNotAtAll : Obligations.ProgramsAssembleInOrderOrNotAtAll := by
  refine ⟨rfl, fun line h => ?nothing, fun line op x e h he => ?one, fun p q S S' T T' hp hq => ?order,
    fun p q line S T e hp he => ?aborts⟩
  case nothing => rw [assembleProgram_cons_of_none (assembleRecord_of_no_instruction h), assembleProgram]
  case one =>
    rw [assembleProgram_cons_of_some (assembleRecord_of_instruction h he), assembleProgram, Except.map, List.append_nil]
  case order => rw [assembleProgram_append hp, hq, Except.map]
  case aborts => rw [assembleProgram_append hp, assembleProgram_cons_of_error (assembleRecord_of_error he), Except.map]

/-- Settles O58. -/
theorem traceRecordsTheStream : Obligations.TraceRecordsTheStream := by
  refine ⟨fun lines S T => assembleProgram_trace, fun digit e hdigit => ?rendering⟩
  have hoctet : ∀ b : Octet, hexOctet b = ['0', 'x', digit (b.toNat / 16), digit (b.toNat % 16)] := by
    intro b
    have hb := b.isLt
    rw [hexOctet, hexDigit_eq (by omega), hexDigit_eq (by omega), hdigit, hdigit]
  rw [machineCode_eq_intercalate, funext hoctet]

/-- Settles O59. -/
theorem assembledProgramsNeverHaltSilently : Obligations.AssembledProgramsNeverHaltSilently :=
  fun _ _ _ _ _ => runToEnd_halted_of_assembled

/-- Settles O60: of the three ends of a run, the silent halt is excluded by the program and the fault by its addresses. -/
theorem assembledProgramsWithGoodAddressesEndByExhaustion : Obligations.AssembledProgramsWithGoodAddressesEndByExhaustion := by
  intro lines S T P s hS h hrange
  have hfault : (runToEnd s).fault = none := by
    rw [runToEnd, run_fault_of_accessInRange hrange]
    obtain ⟨-, rfl⟩ := launch_ok h
    rfl
  obtain ⟨hends, -⟩ := runsEndInThreeWays S P s h
  obtain hexhausted | ⟨hhalted, -, -⟩ | ⟨-, hfaulted, -⟩ := hends
  · exact hexhausted
  · cases hhalted.symm.trans (runToEnd_halted_of_assembled hS h)
  · simp [hfault] at hfaulted

end Sys2Proof.Machine
